-- ==== Sys2Proof/Word.lean ====
section
/-! DEFINITION. The words of the block: bytes, 32-bit register values, 64-bit operands and read data. -/

namespace Sys2Proof

/-- One byte of a window (R12). -/
abbrev Byte := BitVec 8

/-- The value of a 32-bit register of BAR0 (R21). -/
abbrev Word32 := BitVec 32

/-- An offset, write data or read data as the host passes it (R10, R80). -/
abbrev Word64 := BitVec 64

end Sys2Proof
end

