-- ==== Sys2Proof/Syntax.lean ====
section
/-! DEFINITION. The instructions: the six transactions of R84 and the four commands of R87, one constructor per row of
spec/opcode_table.json, with the request a host delivers (R80, R81) and the reasons a request is refused (R92). -/

namespace Sys2Proof

/-- The width of an access, 1, 2, 4 or 8 bytes (R80, R82). -/
inductive Size where
  | b1
  | b2
  | b4
  | b8
  deriving DecidableEq, Repr

/-- The window a transaction names (R50): BAR0 is the register file, BAR1 is `input`, BAR2 is `output`. -/
inductive Bar where
  | bar0
  | bar1
  | bar2
  deriving DecidableEq, Repr

/-- The direction of a transaction, the `wr` bit of R80. -/
inductive Dir where
  | read
  | write
  deriving DecidableEq, Repr

/-- One constructor per row of spec/opcode_table.json. The transactions carry their width, byte offset and write data
(R83, R85); the commands carry nothing (R87). -/
inductive Instr where
  /-- `RD BAR0, offset, size` (R100). -/
  | bar0Read (size : Size) (offset : Word64)
  /-- `WR BAR0, offset, size, wdata` (R103). -/
  | bar0Write (size : Size) (offset wdata : Word64)
  /-- `RD BAR1, offset, size` (R120). -/
  | bar1Read (size : Size) (offset : Word64)
  /-- `WR BAR1, offset, size, wdata` (R123). -/
  | bar1Write (size : Size) (offset wdata : Word64)
  /-- `RD BAR2, offset, size` (R126). -/
  | bar2Read (size : Size) (offset : Word64)
  /-- `WR BAR2, offset, size, wdata`, the absent write path (R128). -/
  | bar2Write (size : Size) (offset wdata : Word64)
  /-- The RESET transition (R143). -/
  | cmdReset
  /-- The START transition (R146). -/
  | cmdStart
  /-- The STOP transition (R149). -/
  | cmdStop
  /-- No transition (R152). -/
  | cmdNone
  deriving DecidableEq, Repr

/-- The command that the Command Engine reads from `control[2:0]` (R87). -/
inductive Command where
  | reset
  | start
  | stop
  | none
  deriving DecidableEq, Repr

/-- A request as the host delivers it: the descriptor of R81 with the two operands that travel beside it (R83).
A read has no write data; what stands in `wdata` then is ignored. -/
structure Request where
  descriptor : BitVec 8
  offset : Word64
  wdata : Word64
  deriving DecidableEq, Repr

/-- What a decoder reads, in the two formats of spec/opcode_table.json: a transaction (`txn_descriptor_8`, R81) or the
command bits `control[2:0]` (`control_command_3`, R87). -/
inductive Code where
  | transaction (r : Request)
  | command (c : BitVec 3)
  deriving DecidableEq, Repr

/-- Why a request is refused at the boundary (R92). -/
inductive RejectReason where
  /-- `d[7:5]` is not 000. -/
  | reservedBits
  /-- `bar` is 3. -/
  | noWindow
  /-- The width is not in the window's admitted set (R55). -/
  | widthNotAdmitted
  deriving DecidableEq, Repr

/-- What decoding gives: an instruction, or the named reason it is refused (R92). -/
inductive Decoded where
  | ok (i : Instr)
  | refuse (reason : RejectReason)
  deriving DecidableEq, Repr

end Sys2Proof
end

