-- ==== Sys2Proof/Config.lean ====
section
/-! DEFINITION. What is fixed for a machine: the window lengths (R6) and the open parameters of R8, R9 and R10 with the
spec's defaults. The parameters are plain data, kept in `State.params` and changed by
no step (log entry 1); `Config.compute` is the one constant with no body (log entry 2). -/

namespace Sys2Proof

/-- The length of BAR0 in bytes (R6). -/
abbrev Config.rfLen : Nat := 64

/-- The length of BAR1 in bytes (R6). -/
abbrev Config.inLen : Nat := 4096

/-- The length of BAR2 in bytes (R6). -/
abbrev Config.outLen : Nat := 4096

/-- The contents of a data window, the `Bytes[4096]` of R9: what COMPUTE takes and gives. -/
abbrev WindowBytes := Fin 4096 → Byte

/-- BAR0_WIDTHS, `{4}` or `{1, 2, 4}` (R8). -/
inductive Bar0Widths where
  | only4
  | upTo4
  deriving DecidableEq, Repr

/-- BAR2_WRITE_HOST, what the host does with a driver's store to BAR2 (R10, R128). -/
inductive Bar2WriteHost where
  | ignored
  | hostFault
  deriving DecidableEq, Repr

/-- COMPUTE (R9), named by plain data. `fill` is the default, FILL_BYTE in every byte; `identity` is the legal value that
the spec's vectors VE-14 and P4 use; `pluggable k` is the uninterpreted function `Config.compute k`, so that what is
proved for every `k` is proved for every strategy (DESIGN CHOICE, log entry 2). -/
inductive ComputeStrategy where
  | fill
  | identity
  | pluggable (k : Nat)
  deriving DecidableEq, Repr

/-- The compute strategies that the spec leaves to whoever plugs one in (R9): nothing constrains them (log entry 2). -/
opaque Config.compute (k : Nat) (input : WindowBytes) : WindowBytes

/-- The open parameters of 00_scope.md's parameter summary (R8, R9, R10). -/
structure Params where
  bar0Widths : Bar0Widths
  strategy : ComputeStrategy
  fillByte : Byte
  bar2WriteHost : Bar2WriteHost
  deriving DecidableEq, Repr

/-- The spec's default parameters (R8, R9, R10). -/
def Params.default : Params :=
  { bar0Widths := .upTo4, strategy := .fill, fillByte := 0x01#8, bar2WriteHost := .ignored }

end Sys2Proof
end

