-- ==== Sys2Proof/Decode.lean ====
section
/-! DEFINITION. Decoding and encoding: the descriptor of a transaction (R81, R82, R84, R88, R92) and the command bits of
`control` (R87). Decoding is total and refuses by name. -/

namespace Sys2Proof

/-- The widths that a value of BAR0_WIDTHS admits (R8). -/
def Bar0Widths.sizes : Bar0Widths → List Size
  | .only4 => [.b4]
  | .upTo4 => [.b1, .b2, .b4]

/-- DATA_WIDTHS, the widths that BAR1 and BAR2 admit (R7). -/
def dataWidths : List Size := [.b1, .b2, .b4, .b8]

/-- The set of widths that a window admits, with `ws` the BAR0_WIDTHS in force (R55). -/
def Bar.widths (ws : Bar0Widths) : Bar → List Size
  | .bar0 => ws.sizes
  | .bar1 => dataWidths
  | .bar2 => dataWidths

/-- Is this width admitted by this window (R55)? -/
def Bar.admits (ws : Bar0Widths) (bar : Bar) (size : Size) : Bool :=
  (bar.widths ws).contains size

/-- The number of bytes of a width, `1 << sz` (R82). -/
def Size.bytes : Size → Nat
  | .b1 => 1
  | .b2 => 2
  | .b4 => 4
  | .b8 => 8

/-- The width that the code `sz` names (R82). -/
def Size.ofCode (sz : BitVec 2) : Size :=
  match sz.toNat with
  | 0 => .b1
  | 1 => .b2
  | 2 => .b4
  | _ => .b8

/-- The code `sz` of a width (R82). -/
def Size.code : Size → BitVec 2
  | .b1 => 0#2
  | .b2 => 1#2
  | .b4 => 2#2
  | .b8 => 3#2

/-- The window that the field `bar` names; 3 names none (R81). -/
def Bar.ofCode (bar : BitVec 2) : Option Bar :=
  match bar.toNat with
  | 0 => some .bar0
  | 1 => some .bar1
  | 2 => some .bar2
  | _ => none

/-- The field `bar` of a window (R81). -/
def Bar.code : Bar → BitVec 2
  | .bar0 => 0#2
  | .bar1 => 1#2
  | .bar2 => 2#2

/-- The direction that the bit `wr` names (R81). -/
def Dir.ofBit (wr : Bool) : Dir := if wr then .write else .read

/-- The bit `wr` of a direction (R81). -/
def Dir.bit : Dir → BitVec 1
  | .read => 0#1
  | .write => 1#1

/-- `d[7:5]`, the reserved bits (R81). -/
def Request.reserved (r : Request) : BitVec 3 := r.descriptor.extractLsb' 5 3

/-- `d[4:3]`, the width code `sz` (R81). -/
def Request.sz (r : Request) : BitVec 2 := r.descriptor.extractLsb' 3 2

/-- `d[2]`, the bit `wr` (R81). -/
def Request.wr (r : Request) : Bool := r.descriptor.getLsbD 2

/-- `d[1:0]`, the window index `bar` (R81). -/
def Request.bar (r : Request) : BitVec 2 := r.descriptor.extractLsb' 0 2

/-- The descriptor `(sz << 3) | (wr << 2) | bar` (R81). -/
def descriptorOf (bar : Bar) (dir : Dir) (size : Size) : BitVec 8 :=
  0#3 ++ size.code ++ dir.bit ++ bar.code

/-- The transaction of this window, direction, width and operands (R84). A read has no write data (R80). -/
def Instr.ofTransaction (bar : Bar) (dir : Dir) (size : Size) (offset wdata : Word64) : Instr :=
  match bar, dir with
  | .bar0, .read => .bar0Read size offset
  | .bar0, .write => .bar0Write size offset wdata
  | .bar1, .read => .bar1Read size offset
  | .bar1, .write => .bar1Write size offset wdata
  | .bar2, .read => .bar2Read size offset
  | .bar2, .write => .bar2Write size offset wdata

/-- The command that `c = control[2:0]` selects: reset over start over stop (R87, R142). -/
def decodeCommand (c : BitVec 3) : Command :=
  if c.getLsbD 2 then .reset
  else if c.getLsbD 0 then .start
  else if c.getLsbD 1 then .stop
  else .none

/-- The command bits that the source gives each command: "control = 4", "control = 1", "control = 2" (R87). Other values
of `control[2:0]` select a command too; these are the words of one bit each (DESIGN CHOICE, log entry 9). -/
def encodeCommand : Command → BitVec 3
  | .reset => 4#3
  | .start => 1#3
  | .stop => 2#3
  | .none => 0#3

/-- The opcode-table row of a command (R87). -/
def Command.instr : Command → Instr
  | .reset => .cmdReset
  | .start => .cmdStart
  | .stop => .cmdStop
  | .none => .cmdNone

/-- Decoding a request with the BAR0_WIDTHS in force; the first reason of R92 that applies is the one reported. -/
def decodeRequest (ws : Bar0Widths) (r : Request) : Decoded :=
  if r.reserved = 0#3 then
    match Bar.ofCode r.bar with
    | none => .refuse .noWindow
    | some bar =>
      if bar.admits ws (Size.ofCode r.sz) then
        .ok (Instr.ofTransaction bar (Dir.ofBit r.wr) (Size.ofCode r.sz) r.offset r.wdata)
      else .refuse .widthNotAdmitted
  else .refuse .reservedBits

/-- Decoding, total in both formats (R92, R87). -/
def decode (ws : Bar0Widths) : Code → Decoded
  | .transaction r => decodeRequest ws r
  | .command c => .ok (decodeCommand c).instr

/-- The request of a transaction's window, direction, width and operands (R81). -/
def requestOf (bar : Bar) (dir : Dir) (size : Size) (offset wdata : Word64) : Code :=
  .transaction { descriptor := descriptorOf bar dir size, offset := offset, wdata := wdata }

/-- Encoding (R81, R84, R87). A read carries zero where a write carries its data (DESIGN CHOICE, log entry 9). -/
def encode : Instr → Code
  | .bar0Read size offset => requestOf .bar0 .read size offset 0#64
  | .bar0Write size offset wdata => requestOf .bar0 .write size offset wdata
  | .bar1Read size offset => requestOf .bar1 .read size offset 0#64
  | .bar1Write size offset wdata => requestOf .bar1 .write size offset wdata
  | .bar2Read size offset => requestOf .bar2 .read size offset 0#64
  | .bar2Write size offset wdata => requestOf .bar2 .write size offset wdata
  | .cmdReset => .command (encodeCommand .reset)
  | .cmdStart => .command (encodeCommand .start)
  | .cmdStop => .command (encodeCommand .stop)
  | .cmdNone => .command (encodeCommand .none)

/-- The request whose bits are `w`: the descriptor in bits 7:0, then the two operands of R83, the offset in bits 71:8 and
the write data in bits 135:72; bits from `nbits` up are zero (DESIGN CHOICE, log entry 7). -/
def Request.ofBits (nbits w : Nat) : Request :=
  { descriptor := BitVec.ofNat 8 (w % 2 ^ nbits)
    offset := BitVec.ofNat 64 (w % 2 ^ nbits / 2 ^ 8)
    wdata := BitVec.ofNat 64 (w % 2 ^ nbits / 2 ^ 72) }

/-- The code that an opcode-table word of `nbits` bits stands for. A descriptor has 8 bits (R81), the command bits of
`control` are 3 (R87), so a word of fewer than 8 bits is read as command bits (DESIGN CHOICE, log entry 7). -/
def Code.ofTableWord (nbits w : Nat) : Code :=
  if nbits < 8 then .command (BitVec.ofNat 3 (w % 2 ^ nbits)) else .transaction (Request.ofBits nbits w)

/-- The request with which a host brings a code to the block: a transaction itself; for command bits, the 4-byte BAR0
write that stores them in `control`, the one way in which a command comes to run (R105, R91, log entry 7). -/
def Code.request : Code → Request
  | .transaction r => r
  | .command c => { descriptor := descriptorOf .bar0 .write .b4, offset := 0#64, wdata := c.setWidth 64 }

/-- The instruction that the decoder reads from an opcode-table word, at the default BAR0_WIDTHS (R8). -/
def decodeTableWord (nbits w : Nat) : Option Instr :=
  match decode Params.default.bar0Widths (Code.ofTableWord nbits w) with
  | .ok i => some i
  | .refuse _ => none

end Sys2Proof
end

