-- ==== Sys2Proof/Machine/State.lean ====
section
/-! DEFINITION. The state: the block's three byte arrays (R20), the open parameters (log entry 1), and the model's own
record of what crosses the boundary with the host: the requests not yet taken (log entry 3) and the events of the
transactions that completed (log entry 4). The block has no program counter, no general register, no saved exception
state, no mode and no interrupt bit (R36, R37, R38, R174, R175, R177). -/

namespace Sys2Proof.Machine

/-- The contents of one window: the cells that differ from 0x00, by strictly rising offset (`Memory.wf`). A byte that is
not listed is 0x00, the creation value of every byte (R39, log entry 13). -/
abbrev Memory := List Host.Cell

/-- The block's architectural state, exactly three byte arrays (R20). The registers of BAR0 have one home, the byte image
`rf`; `control`, `control_w1s`, `control_w1c` and `status` are views of it (R13). -/
structure Block where
  /-- RF, the register file, 64 bytes (R21). -/
  rf : Memory
  /-- IN, the `input` window, 4096 bytes (R34). -/
  input : Memory
  /-- OUT, the `output` window, 4096 bytes (R35). -/
  output : Memory
  deriving DecidableEq, Repr

/-- The outcome classes of R171. No rule of the block reads one back. -/
inductive TxnOutcome where
  | okRead
  | okWrite
  | outOfRange
  | readOnlyDrop
  | noWritePath
  deriving DecidableEq, Repr

/-- What the host gets back from a transaction (R80): read data or a completion. `hostFault` is the completion of a BAR2
store where BAR2_WRITE_HOST is host_fault: the host's own report to the guest, of which the block sees nothing (R128,
log entry 8). -/
inductive Response where
  | data (rdata : Word64)
  | complete
  | hostFault
  deriving DecidableEq, Repr

/-- One completed transaction: its outcome class (R171) and its response (R80). -/
structure Event where
  outcome : TxnOutcome
  response : Response
  deriving DecidableEq, Repr

/-- One device instance (R40, R41, DEDUCED, log entry 16) with its parameters and its boundary with the host. -/
structure State where
  /-- The open parameters of R8, R9 and R10; no step changes them (DESIGN CHOICE, log entry 1). -/
  params : Params
  /-- The block's state (R20). -/
  block : Block
  /-- The transactions the host has delivered and the block has not taken, oldest first (R61, R80, DESIGN CHOICE, log entries
  3 and 15). -/
  requests : List Request
  /-- The events of the transactions that completed, oldest first (R171, R197, DESIGN CHOICE, log entry 4). -/
  history : List Event
  deriving DecidableEq, Repr

/-- The block never faults its caller (R170), has no trap mechanism (R175), and none of its behaviours is to be modelled
as a fault (93_implementation_defined.md): there is no fault reason (DEDUCED, log entry 10). -/
inductive Fault where
  deriving DecidableEq, Repr

/-- Why a step has no meaning. -/
inductive Refusal where
  /-- An instruction with no meaning yet, rejected by name in `exec`. Safe: the run stops. No arm raises it. -/
  | notModelled (mnemonic : String)
  /-- A request that breaks the host's contract is refused at the boundary (R88, R92), by `step` when it does not decode
  and by the transaction meanings when the width is not admitted. Safe: the run stops where the spec has no step
  (log entry 5). -/
  | boundary (reason : RejectReason)
  deriving DecidableEq, Repr

/-- The block's state at creation: every byte is 0x00 (R39, R190). -/
def Block.zero : Block := { rf := [], input := [], output := [] }

/-- The machine at creation (R39, R190): every byte is 0x00, the Command Engine is Idle; the parameters are the spec's
defaults (log entry 1); no transaction has been delivered and none has completed (log entries 3, 4, 6). -/
def State.reset : State :=
  { params := Params.default, block := Block.zero, requests := [], history := [] }

end Sys2Proof.Machine
end

