-- ==== Sys2Proof/Machine/Ops.lean ====
section
/-! DEFINITION. The named operations over a window's bytes (R12, R53) and over the state: reading, writing, little-endian
load and store, filling a window, recording an event, taking a request. There is no operation that takes an exception and
none that returns from one: the block has no trap mechanism (R175), and no transaction raises anything (R170). -/

namespace Sys2Proof.Machine

/-- What a byte that is not listed reads as: the creation value 0x00 (R39). -/
def Memory.unlisted : Byte := 0#8

/-- Byte `a` of a window, `W[a]` (R12). -/
def Memory.read : Memory → Nat → Byte
  | [], _ => Memory.unlisted
  | (k, c) :: m, a => if k = a then c else Memory.read m a

/-- The window with byte `a` no longer listed. -/
def Memory.erase : Memory → Nat → Memory
  | [], _ => []
  | (k, c) :: m, a => if k = a then Memory.erase m a else (k, c) :: Memory.erase m a

/-- The window with byte `a` listed as `b`, in rising order. -/
def Memory.insert : Memory → Nat → Byte → Memory
  | [], a, b => [(a, b)]
  | (k, c) :: m, a, b =>
    if a < k then (a, b) :: (k, c) :: m
    else if a = k then (a, b) :: m
    else (k, c) :: Memory.insert m a b

/-- `W[a] <- b` (R12). Writing what an unlisted byte reads as removes the entry, so equal contents are equal data. -/
def Memory.set (m : Memory) (a : Nat) (b : Byte) : Memory :=
  if b = Memory.unlisted then m.erase a else m.insert a b

/-- Byte `i` of a value, `v[8*i+7 : 8*i]` (R12). -/
def byteOf (v : Word64) (i : Nat) : Byte := v.extractLsb' (8 * i) 8

/-- `MemRead(W, o, n)`, that is `LE(W, o, n)`: the little-endian value of `n` bytes, byte `o` in bits 7:0 (R12, R53). -/
def Memory.load (m : Memory) (o : Nat) : Nat → Word64
  | 0 => 0#64
  | n + 1 => m.load o n ||| ((m.read (o + n)).setWidth 64 <<< (8 * n))

/-- `MemWrite(W, o, n, v)`: byte `o + i` becomes byte `i` of `v`, for `i` from 0 to `n - 1` (R12, R85). -/
def Memory.store (m : Memory) (o : Nat) (v : Word64) : Nat → Memory
  | 0 => m
  | n + 1 => (m.store o v n).set (o + n) (byteOf v n)

/-- `zeros(W)`: every byte is 0x00 (R12). -/
def Memory.zeros : Memory := []

/-- The contents of a data window as COMPUTE takes them (R9). -/
def Memory.bytes (m : Memory) : WindowBytes := fun i => m.read i.val

/-- The cells from offset `a` on of `n` bytes given by `f`, those that are not 0x00. -/
def Memory.fillFrom (f : Nat → Byte) : Nat → Nat → Memory
  | _, 0 => []
  | a, n + 1 =>
    if f a = Memory.unlisted then Memory.fillFrom f (a + 1) n
    else (a, f a) :: Memory.fillFrom f (a + 1) n

/-- The window whose byte `i` is `x i` for `i` in `0 .. 4095` (R146). -/
def Memory.ofBytes (x : WindowBytes) : Memory :=
  Memory.fillFrom (fun a => if h : a < 4096 then x ⟨a, h⟩ else Memory.unlisted) 0 Config.outLen

/-- The canonical form: offsets at least `lo`, below `len` and strictly rising, and no entry that reads as an unlisted byte does. -/
def Memory.wfFrom (len : Nat) : Nat → Memory → Bool
  | _, [] => true
  | lo, (k, c) :: m => lo ≤ k && k < len && c != Memory.unlisted && Memory.wfFrom len (k + 1) m

/-- The canonical form of a window of `len` bytes. -/
def Memory.wf (len : Nat) (m : Memory) : Bool := Memory.wfFrom len 0 m

/-- The state with another block state. -/
def State.withBlock (s : State) (b : Block) : State := { s with block := b }

/-- The block with another register file. -/
def Block.withRf (b : Block) (m : Memory) : Block := { b with rf := m }

/-- The block with other `input` contents. -/
def Block.withInput (b : Block) (m : Memory) : Block := { b with input := m }

/-- The block with other `output` contents. -/
def Block.withOutput (b : Block) (m : Memory) : Block := { b with output := m }

/-- A transaction completes with this event (R171, R80). -/
def State.record (s : State) (e : Event) : State := { s with history := s.history ++ [e] }

/-- The read data of a response. -/
def Response.readData : Response → Option Word64
  | .data v => some v
  | .complete => none
  | .hostFault => none

/-- The read responses of a run, one per read, in order (R197). -/
def State.readResponses (s : State) : List Word64 :=
  s.history.filterMap fun e => e.response.readData

/-- The oldest request not yet taken, and the state without it (R60, R61). -/
def State.fetch (s : State) : Option (Request × State) :=
  match s.requests with
  | [] => none
  | r :: rest => some (r, { s with requests := rest })

/-- The host delivers one more transaction, after those it delivered before (R61, R183). -/
def State.deliver (s : State) (r : Request) : State := { s with requests := s.requests ++ [r] }

/-- The request stands where the next step takes its transaction, before all others. -/
def State.placeFirst (s : State) (r : Request) : State := { s with requests := r :: s.requests }

end Sys2Proof.Machine
end

