-- ==== Sys2Proof/Machine/Operands.lean ====
section
/-! DEFINITION. The operand checks and forms that the transactions share: the boundary check (R55, R88), the bounds check
(R56, R57), the `status` overlap check (R104), and what a read of a window answers (R56, R86). -/

namespace Sys2Proof.Machine

/-- `ones(n)`: the value with its low `8*n` bits set (R12), the sentinel of an out-of-range read (R56). -/
def ones (n : Nat) : Word64 := BitVec.ofNat 64 (2 ^ (8 * n) - 1)

/-- `offset + size <= len`, as natural numbers, with no wrap (R56, R57). -/
def inRange (offset : Word64) (size : Size) (len : Nat) : Bool :=
  offset.toNat + size.bytes ≤ len

/-- The byte range `[offset, offset+size)` overlaps `status`, `[0x0C, 0x10)` (R104). -/
def overlapsStatus (offset : Word64) (size : Size) : Bool :=
  offset.toNat < 0x10 && 0x0C < offset.toNat + size.bytes

/-- A transaction whose width its window does not admit is refused at the boundary, before anything else (R55, R173). -/
def atBoundary (bar : Bar) (size : Size) (s : State) (run : Host.Outcome State Fault Refusal) :
    Host.Outcome State Fault Refusal :=
  if bar.admits s.params.bar0Widths size then run else .refused (.boundary .widthNotAdmitted)

/-- What a read of `size` bytes at `offset` of a window answers: the bytes in little-endian order, zero-extended, or the
whole sentinel when any of it is out of range (R56, R86). -/
def readEvent (m : Memory) (len : Nat) (offset : Word64) (size : Size) : Event :=
  if inRange offset size len then
    { outcome := .okRead, response := .data (m.load offset.toNat size.bytes) }
  else { outcome := .outOfRange, response := .data (ones size.bytes) }

/-- A store that is accepted, one that is out of range and one that overlaps `status` all complete with no data (R170). -/
def writeEvent (outcome : TxnOutcome) : Event := { outcome := outcome, response := .complete }

/-- How a driver's store to BAR2 completes: as BAR2_WRITE_HOST says (R10, R128). -/
def bar2WriteEvent (p : Params) : Event :=
  { outcome := .noWritePath
    response := match p.bar2WriteHost with
      | .ignored => .complete
      | .hostFault => .hostFault }

end Sys2Proof.Machine
end

