-- ==== Sys2Proof/Machine/DataWindow.lean ====
section
/-! DEFINITION. The transactions of the data windows, BAR1 `input` and BAR2 `output` (R120, R123, R126, R128). They have
no read-only range and no hook (R124). -/

namespace Sys2Proof.Machine

/-- BAR1_READ (R120). -/
def execBar1Read (size : Size) (offset : Word64) (s : State) : Host.Outcome State Fault Refusal :=
  atBoundary .bar1 size s (.next (s.record (readEvent s.block.input Config.inLen offset size)))

/-- What a BAR1 write leaves: dropped when out of range, else its bytes stored and nothing else (R123, R124). -/
def bar1WriteResult (size : Size) (offset wdata : Word64) (s : State) : State :=
  if inRange offset size Config.inLen then
    (s.withBlock (s.block.withInput (s.block.input.store offset.toNat wdata size.bytes))).record (writeEvent .okWrite)
  else s.record (writeEvent .outOfRange)

/-- BAR1_WRITE (R123). -/
def execBar1Write (size : Size) (offset wdata : Word64) (s : State) : Host.Outcome State Fault Refusal :=
  atBoundary .bar1 size s (.next (bar1WriteResult size offset wdata s))

/-- BAR2_READ (R126). -/
def execBar2Read (size : Size) (offset : Word64) (s : State) : Host.Outcome State Fault Refusal :=
  atBoundary .bar2 size s (.next (s.record (readEvent s.block.output Config.outLen offset size)))

/-- BAR2_WRITE, the absent write path: no block state changes, in range or not; offset and data are ignored (R128). -/
def execBar2Write (size : Size) (_offset _wdata : Word64) (s : State) : Host.Outcome State Fault Refusal :=
  atBoundary .bar2 size s (.next (s.record (bar2WriteEvent s.params)))

end Sys2Proof.Machine
end

