-- ==== Sys2Proof/Machine/Flags.lean ====
section
/-! DEFINITION. The registers of BAR0 as views of the byte image, and their bits: the command bits of `control` (R22) and
the flags of `status` (R26). A bit's assignment rewrites that bit alone (R13). -/

namespace Sys2Proof.Machine

/-- The offset of `control` (R21). -/
def controlOffset : Nat := 0x00

/-- The offset of `control_w1s` (R21). -/
def controlW1sOffset : Nat := 0x04

/-- The offset of `control_w1c` (R21). -/
def controlW1cOffset : Nat := 0x08

/-- The offset of `status` (R21). -/
def statusOffset : Nat := 0x0C

/-- The 32-bit register at an offset of the register file, `LE(RF, o, 4)` (R13), the `read32` of R42. -/
def Block.read32 (b : Block) (o : Nat) : Word32 := (b.rf.load o 4).setWidth 32

/-- `control` (R22). -/
def Block.control (b : Block) : Word32 := b.read32 controlOffset

/-- `control_w1s` (R24). -/
def Block.controlW1s (b : Block) : Word32 := b.read32 controlW1sOffset

/-- `control_w1c` (R25). -/
def Block.controlW1c (b : Block) : Word32 := b.read32 controlW1cOffset

/-- `status` (R26). -/
def Block.status (b : Block) : Word32 := b.read32 statusOffset

/-- `control[2:0]`, the command bits (R22, R87). -/
def Block.commandBits (b : Block) : BitVec 3 := b.control.extractLsb' 0 3

/-- `control.start`, bit 0 (R22). -/
def Block.start (b : Block) : Bool := b.control.getLsbD 0

/-- `control.stop`, bit 1 (R22). -/
def Block.stop (b : Block) : Bool := b.control.getLsbD 1

/-- `control.reset`, bit 2 (R22). -/
def Block.resetBit (b : Block) : Bool := b.control.getLsbD 2

/-- `status.busy`, bit 0 (R26). -/
def Block.busy (b : Block) : Bool := b.status.getLsbD 0

/-- `status.done`, bit 1 (R26). -/
def Block.done (b : Block) : Bool := b.status.getLsbD 1

/-- `status.error`, bits 5:2 (R26, R27). -/
def Block.error (b : Block) : BitVec 4 := b.status.extractLsb' 2 4

/-- The states of the Command Engine (R30). -/
inductive EngineState where
  | idle
  | busy
  | done
  deriving DecidableEq, Repr

/-- The Command Engine's state as `(status.busy, status.done)` encodes it; `(1,1)` encodes no state (R30). -/
def Block.engine (b : Block) : Option EngineState :=
  match b.busy, b.done with
  | false, false => some .idle
  | true, false => some .busy
  | false, true => some .done
  | true, true => none

/-- A byte with bit `k` set to `v` and its other bits as they are (R13). -/
def setBit (c : Byte) (k : Nat) (v : Bool) : Byte :=
  if v then c ||| (1#8 <<< k) else c &&& ~~~(1#8 <<< k)

/-- The register file with bit `k` of byte `a` set to `v` and all else as it is (R13). -/
def Block.assignBit (b : Block) (a k : Nat) (v : Bool) : Block :=
  b.withRf (b.rf.set a (setBit (b.rf.read a) k v))

/-- `control.start <- v` (R13, R22). -/
def Block.setStart (b : Block) (v : Bool) : Block := b.assignBit controlOffset 0 v

/-- `control.stop <- v` (R13, R22). -/
def Block.setStop (b : Block) (v : Bool) : Block := b.assignBit controlOffset 1 v

/-- `status.busy` and `status.done`, written together (R31, DEDUCED, log entry 11). -/
def Block.setBusyDone (b : Block) (busy done : Bool) : Block :=
  b.withRf (b.rf.set statusOffset (setBit (setBit (b.rf.read statusOffset) 0 busy) 1 done))

end Sys2Proof.Machine
end

