-- ==== Sys2Proof/Machine/Engine.lean ====
section
/-! DEFINITION. The Command Engine: its transitions RESET, START and STOP as operations on the block (R143, R146, R149),
the selection of one of them (R141, R142), and the meanings of the four commands. The engine reaches the three windows
directly: no bounds, read-only or width rule applies to it (R67). A command's meaning is
its transition alone, with no test of the trigger, which the selection makes (DEDUCED, log entry 12). -/

namespace Sys2Proof.Machine

/-- COMPUTE (R9). -/
def runCompute (p : Params) (x : WindowBytes) : WindowBytes :=
  match p.strategy with
  | .fill => fun _ => p.fillByte
  | .identity => x
  | .pluggable k => Config.compute k x

/-- RESET: the entire register file and both data windows become zero (R143). -/
def Block.resetTransition (b : Block) : Block :=
  ((b.withRf Memory.zeros).withInput Memory.zeros).withOutput Memory.zeros

/-- START up to the call of COMPUTE: the engine is Busy and `control.stop` is clear (R146). -/
def Block.startEnter (b : Block) : Block := (b.setBusyDone true false).setStop false

/-- START's middle: `output` takes COMPUTE's result for `input` as it stands, then `input` is cleared (R146). -/
def Block.startCompute (p : Params) (b : Block) : Block :=
  (b.withOutput (Memory.ofBytes (runCompute p b.input.bytes))).withInput Memory.zeros

/-- START after COMPUTE: the engine is Done and `control.start` is clear (R146). -/
def Block.startFinish (b : Block) : Block := (b.setBusyDone false true).setStart false

/-- START, the steps in the spec's order (R146). -/
def Block.startTransition (p : Params) (b : Block) : Block :=
  ((b.startEnter).startCompute p).startFinish

/-- STOP_STUB, a no-op placeholder with no effect on any state (R9). -/
def Block.stopStub (b : Block) : Block := b

/-- STOP: Idle, `control.start` clear, the stub, `control.stop` clear (R149). -/
def Block.stopTransition (b : Block) : Block :=
  (((b.setBusyDone false false).setStart false).stopStub).setStop false

/-- The transition of a command; NONE is no transition (R142, R152). -/
def Block.runCommand (p : Params) (b : Block) : Command → Block
  | .reset => b.resetTransition
  | .start => b.startTransition p
  | .stop => b.stopTransition
  | .none => b

/-- The write side-effect hook: after an accepted BAR0 write, the one transition that the post-write `control[2:0]`
selects (R105, R141, R142). -/
def Block.hook (p : Params) (b : Block) : Block := b.runCommand p (decodeCommand b.commandBits)

/-- CMD_RESET (R143). -/
def execCmdReset (s : State) : Host.Outcome State Fault Refusal :=
  .next (s.withBlock s.block.resetTransition)

/-- CMD_START (R146). -/
def execCmdStart (s : State) : Host.Outcome State Fault Refusal :=
  .next (s.withBlock (s.block.startTransition s.params))

/-- CMD_STOP (R149). -/
def execCmdStop (s : State) : Host.Outcome State Fault Refusal :=
  .next (s.withBlock s.block.stopTransition)

/-- CMD_NONE: no transition (R152). -/
def execCmdNone (s : State) : Host.Outcome State Fault Refusal :=
  .next s

end Sys2Proof.Machine
end

