-- ==== Sys2Proof/Machine/RegisterFile.lean ====
section
/-! DEFINITION. The transactions of BAR0, the register file (R100, R103, R104, R105). The checks stand in the order of
R173. -/

namespace Sys2Proof.Machine

/-- The byte merge of a BAR0 write, without side effects (`apply_write`, R42). -/
def Block.mergeRf (b : Block) (size : Size) (offset wdata : Word64) : Block :=
  b.withRf (b.rf.store offset.toNat wdata size.bytes)

/-- BAR0_READ (R100). -/
def execBar0Read (size : Size) (offset : Word64) (s : State) : Host.Outcome State Fault Refusal :=
  atBoundary .bar0 size s (.next (s.record (readEvent s.block.rf Config.rfLen offset size)))

/-- What a BAR0 write leaves once the boundary has let it through: dropped when out of range or when it overlaps `status`
(R104), else merged, and then the hook runs (R105). -/
def bar0WriteResult (size : Size) (offset wdata : Word64) (s : State) : State :=
  if inRange offset size Config.rfLen then
    if overlapsStatus offset size then s.record (writeEvent .readOnlyDrop)
    else (s.withBlock ((s.block.mergeRf size offset wdata).hook s.params)).record (writeEvent .okWrite)
  else s.record (writeEvent .outOfRange)

/-- BAR0_WRITE (R103). -/
def execBar0Write (size : Size) (offset wdata : Word64) (s : State) : Host.Outcome State Fault Refusal :=
  atBoundary .bar0 size s (.next (bar0WriteResult size offset wdata s))

end Sys2Proof.Machine
end

