-- ==== Sys2Proof/Machine/Dispatch.lean ====
section
/-! DEFINITION. The dispatch of an instruction to its meaning, one arm per row of spec/opcode_table.json. -/

namespace Sys2Proof.Machine

/-- The meaning of an instruction (R84, R87). -/
def exec (i : Instr) (s : State) : Host.Outcome State Fault Refusal :=
  match i with
  | .bar0Read size offset => Sys2Proof.Machine.execBar0Read size offset s
  | .bar0Write size offset wdata => Sys2Proof.Machine.execBar0Write size offset wdata s
  | .bar1Read size offset => Sys2Proof.Machine.execBar1Read size offset s
  | .bar1Write size offset wdata => Sys2Proof.Machine.execBar1Write size offset wdata s
  | .bar2Read size offset => Sys2Proof.Machine.execBar2Read size offset s
  | .bar2Write size offset wdata => Sys2Proof.Machine.execBar2Write size offset wdata s
  | .cmdReset => Sys2Proof.Machine.execCmdReset s
  | .cmdStart => Sys2Proof.Machine.execCmdStart s
  | .cmdStop => Sys2Proof.Machine.execCmdStop s
  | .cmdNone => Sys2Proof.Machine.execCmdNone s

end Sys2Proof.Machine
end

