-- ==== Sys2Proof/Machine/Step.lean ====
section
/-! DEFINITION. One step of the machine: it takes the oldest request the host has delivered, decodes it with the
BAR0_WIDTHS in force and executes it (R60, R61, R88). A command never is a request of its own: it runs inside the BAR0
write that triggers it (R105, R140). -/

namespace Sys2Proof.Machine

/-- One step. With no request there is nothing to do and nothing changes: the device has no background thread (R37, log
entry 3). A request that does not decode is refused (R88, log entry 5). -/
def step (s : State) : Host.Outcome State Fault Refusal :=
  match s.fetch with
  | none => .next s
  | some (r, s') =>
    match decode s.params.bar0Widths (.transaction r) with
    | .refuse reason => .refused (.boundary reason)
    | .ok i => exec i s'

/-- The state with the instruction of an opcode-table word delivered first (log entries 6, 7). -/
def State.withFetchWord (s : State) (nbits w : Nat) : State :=
  s.placeFirst (Code.ofTableWord nbits w).request

end Sys2Proof.Machine
end

