-- ==== Sys2Proof/Safety.lean ====
section
/-! DEFINITION. What claims call a proper state: the invariant that holds between any two transactions
(R27, R28, R31, R32, R33), and the states that a run can reach (R61, R197). -/

namespace Sys2Proof.Machine

/-- Each of the three byte arrays is in canonical form and lies inside its window (R6, R20). -/
abbrev Block.WellFormed (b : Block) : Prop :=
  b.rf.wf Config.rfLen = true ∧ b.input.wf Config.inLen = true ∧ b.output.wf Config.outLen = true

/-- What holds between any two transactions: `control[2:0] = 0` (R33), `status` is Idle or Done (R32), and the byte arrays
are in canonical form. -/
abbrev Block.Inv (b : Block) : Prop :=
  b.WellFormed ∧ b.commandBits = 0#3 ∧ (b.status = 0x00000000#32 ∨ b.status = 0x00000002#32)

/-- `Block.Inv` of the state's block. -/
abbrev State.Inv (s : State) : Prop := s.block.Inv

/-- The states of a run: a machine at creation with any parameters and any transactions delivered to it, and what each
step leaves (R61, R197, DESIGN CHOICE, log entry 17). -/
inductive Reachable : State → Prop where
  | creation (p : Params) (rs : List Request) : Reachable { State.reset with params := p, requests := rs }
  | step {s t : State} (hs : Reachable s) (h : step s = .next t) : Reachable t

end Sys2Proof.Machine
end

