-- ==== Sys2Proof/WellFormed.lean ====
section
/-! DEFINITION. Well-formed instructions: the width is one that the window admits (R55). The offset and the write data may
be any 64-bit value (R83), and a command has no operand (R87). -/

namespace Sys2Proof

/-- The check on an instruction (R55, R92): a transaction's width is admitted by its window. -/
def Instr.wellFormed (ws : Bar0Widths) : Instr → Bool
  | .bar0Read size _ => Bar.admits ws .bar0 size
  | .bar0Write size _ _ => Bar.admits ws .bar0 size
  | .bar1Read size _ => Bar.admits ws .bar1 size
  | .bar1Write size _ _ => Bar.admits ws .bar1 size
  | .bar2Read size _ => Bar.admits ws .bar2 size
  | .bar2Write size _ _ => Bar.admits ws .bar2 size
  | .cmdReset => true
  | .cmdStart => true
  | .cmdStop => true
  | .cmdNone => true

end Sys2Proof
end

