-- ==== Sys2Proof/Certificates/Slice0/Obligations.lean ====
section
/-! DEFINITION. The statements for the provers, from the numbered rules of spec/. `Claims` holds the few predicates that
several statements share; each statement's docstring names its rules. -/

namespace Sys2Proof.Claims

open Sys2Proof.Machine

/-- A BAR0 write is accepted: it is in range and does not overlap `[0x0C, 0x10)` (R104). -/
abbrev Accepted (size : Size) (offset : Word64) : Prop :=
  offset.toNat + size.bytes ≤ 64 ∧ ¬ (offset.toNat < 0x10 ∧ 0x0C < offset.toNat + size.bytes)

/-- Two windows read the same at every offset. -/
def SameBytes (m m' : Memory) : Prop := ∀ x, m'.read x = m.read x

/-- The event of a read of this window: in range its bytes in little-endian order, else the all-ones sentinel of the
access width; bytes above the width are zero (R56, R86). -/
def ReadsWindow (m : Memory) (len : Nat) (offset : Word64) (size : Size) (e : Event) : Prop :=
  ∃ v, e.response = .data v ∧
    (offset.toNat + size.bytes ≤ len →
      e.outcome = .okRead ∧ ∀ i < 8, byteOf v i = if i < size.bytes then m.read (offset.toNat + i) else 0x00#8) ∧
    (len < offset.toNat + size.bytes →
      e.outcome = .outOfRange ∧ ∀ i < 8, byteOf v i = if i < size.bytes then 0xFF#8 else 0x00#8)

/-- The bytes of a window after `wdata` was stored at `offset` (R85). -/
def StoredAt (m m' : Memory) (size : Size) (offset wdata : Word64) : Prop :=
  ∀ x, m'.read x =
    if offset.toNat ≤ x ∧ x < offset.toNat + size.bytes then byteOf wdata (x - offset.toNat) else m.read x

/-- This is the command that `control[2:0]` selects, by priority reset over start over stop (R142). -/
abbrev Selects (b : Block) (c : Command) : Prop :=
  (b.control.getLsbD 2 = true ∧ c = .reset) ∨
  (b.control.getLsbD 2 = false ∧ b.control.getLsbD 0 = true ∧ c = .start) ∨
  (b.control.getLsbD 2 = false ∧ b.control.getLsbD 0 = false ∧ b.control.getLsbD 1 = true ∧ c = .stop) ∨
  (b.control.getLsbD 2 = false ∧ b.control.getLsbD 0 = false ∧ b.control.getLsbD 1 = false ∧ c = .none)

/-- What START and STOP leave alone in the register file: every byte but 0x00 and 0x0C, `control[31:2]` and
`status[31:2]` (R146, R149). -/
def KeepsOtherRegisters (b b' : Block) : Prop :=
  (∀ x, x ≠ 0x00 → x ≠ 0x0C → b'.rf.read x = b.rf.read x) ∧
  b'.control.extractLsb' 2 30 = b.control.extractLsb' 2 30 ∧
  b'.status.extractLsb' 2 30 = b.status.extractLsb' 2 30

/-- The net effect of START (R146). -/
def StartEffect (p : Params) (b b' : Block) : Prop :=
  KeepsOtherRegisters b b' ∧ b'.control.getLsbD 0 = false ∧ b'.control.getLsbD 1 = false ∧
  b'.status.extractLsb' 0 2 = 0b10#2 ∧ (b.status.extractLsb' 2 30 = 0#30 → b'.status = 0x00000002#32) ∧
  (∀ x, b'.output.read x = if h : x < 4096 then runCompute p b.input.bytes ⟨x, h⟩ else 0x00#8) ∧
  (∀ x, b'.input.read x = 0x00#8)

/-- The net effect of STOP (R149). -/
def StopEffect (b b' : Block) : Prop :=
  KeepsOtherRegisters b b' ∧ b'.control.getLsbD 0 = false ∧ b'.control.getLsbD 1 = false ∧
  b'.status.extractLsb' 0 2 = 0b00#2 ∧ (b.status.extractLsb' 2 30 = 0#30 → b'.status = 0x00000000#32) ∧
  b'.input = b.input ∧ b'.output = b.output

/-- The reading of R141 that the spec did not take: each selected transition in turn, each if its bit is still set. -/
def transitionsInTurn (p : Params) (b : Block) : Block :=
  let b1 := if b.resetBit then b.resetTransition else b
  let b2 := if b1.start then b1.startTransition p else b1
  if b2.stop then b2.stopTransition else b2

/-- The instruction is one of the three reads (R84). -/
def IsRead (i : Instr) : Prop :=
  ∃ size offset, i = .bar0Read size offset ∨ i = .bar1Read size offset ∨ i = .bar2Read size offset

/-- The instruction runs this command on this state: it is the command itself, or an accepted BAR0 write whose
post-write `control[2:0]` selects it (R105, R142). -/
def Runs (i : Instr) (s : State) (c : Command) : Prop :=
  i = c.instr ∨
  ∃ size offset wdata, i = .bar0Write size offset wdata ∧ Accepted size offset ∧
    Selects (s.block.mergeRf size offset wdata) c

end Sys2Proof.Claims

open Sys2Proof Sys2Proof.Machine Sys2Proof.Claims

/-! ### Reset -/

/-- R39: every byte of the state is 0x00 at creation and after the reset transition, field by field. -/
def Obligations.ResetValues : Prop :=
  ∀ b0 b : Block, (b = State.reset.block ∨ b = b0.resetTransition) →
    (∀ x, b.rf.read x = 0x00#8 ∧ b.input.read x = 0x00#8 ∧ b.output.read x = 0x00#8) ∧
    b.control = 0#32 ∧ b.controlW1s = 0#32 ∧ b.controlW1c = 0#32 ∧ b.status = 0#32 ∧ b.engine = some .idle

/-- The machine at creation meets the invariant that holds between transactions (R32, R33, R39), with the canonical form of
the byte arrays (the model's own, log entry 13). -/
def Obligations.ResetMeetsInvariant : Prop := State.reset.Inv

/-! ### Decoding -/

/-- R81, R84, R87: words written out bit by bit from the spec's encodings decode to the instructions they stand for. -/
def Obligations.WrittenOutWordsDecode : Prop :=
  decode .upTo4 (.transaction ⟨0b00010000#8, 0x0C#64, 0#64⟩) = .ok (.bar0Read .b4 0x0C#64) ∧
  decode .upTo4 (.transaction ⟨0b00010100#8, 0x00#64, 0x00000001#64⟩) = .ok (.bar0Write .b4 0x00#64 0x00000001#64) ∧
  decode .upTo4 (.transaction ⟨0b00011001#8, 0xFF8#64, 0#64⟩) = .ok (.bar1Read .b8 0xFF8#64) ∧
  decode .upTo4 (.transaction ⟨0b00001101#8, 0x7#64, 0xABCD#64⟩) = .ok (.bar1Write .b2 0x7#64 0xABCD#64) ∧
  decode .upTo4 (.transaction ⟨0b00000010#8, 0xFFF#64, 0#64⟩) = .ok (.bar2Read .b1 0xFFF#64) ∧
  decode .upTo4 (.transaction ⟨0b00011110#8, 0x0#64, 0x1#64⟩) = .ok (.bar2Write .b8 0x0#64 0x1#64) ∧
  decode .only4 (.command 0b111#3) = .ok .cmdReset ∧ decode .only4 (.command 0b011#3) = .ok .cmdStart ∧
  decode .only4 (.command 0b010#3) = .ok .cmdStop ∧ decode .only4 (.command 0b000#3) = .ok .cmdNone

/-- R81, R87, R92: decoding an encoded well-formed instruction gives it back, every operand at every value. -/
def Obligations.DecodeOfEncode : Prop :=
  ∀ (ws : Bar0Widths) (i : Instr), i.wellFormed ws = true → decode ws (encode i) = .ok i

/-- R81, R84: what a request decodes to is well-formed and a transaction, and encodes back to the request. That the encoding
of a read carries zero write data is the model's choice (DESIGN CHOICE, log entry 9): a read has none. -/
def Obligations.EncodeOfDecode : Prop :=
  ∀ (ws : Bar0Widths) (r : Request) (i : Instr), decode ws (.transaction r) = .ok i →
    i.wellFormed ws = true ∧ encode i = .transaction { r with wdata := if r.descriptor.getLsbD 2 then r.wdata else 0#64 }

/-- R88, R92: a request is refused for its reserved bits, else for naming no window, else for a width its window does not
admit, the first of these that applies, and else decodes to the one of the six kinds that its bits name, with its width. -/
def Obligations.BoundaryRefusals : Prop :=
  ∀ (ws : Bar0Widths) (r : Request),
    let d := r.descriptor
    let wide := d.extractLsb' 0 2 = 0#2 ∧ (d.extractLsb' 3 2 = 3#2 ∨ (ws = .only4 ∧ d.extractLsb' 3 2 ≠ 2#2))
    (d.extractLsb' 5 3 ≠ 0#3 → decode ws (.transaction r) = .refuse .reservedBits) ∧
    (d.extractLsb' 5 3 = 0#3 → d.extractLsb' 0 2 = 3#2 → decode ws (.transaction r) = .refuse .noWindow) ∧
    (d.extractLsb' 5 3 = 0#3 → wide → decode ws (.transaction r) = .refuse .widthNotAdmitted) ∧
    (d.extractLsb' 5 3 = 0#3 → d.extractLsb' 0 2 ≠ 3#2 → ¬ wide → ∃ i size, decode ws (.transaction r) = .ok i ∧
      d.extractLsb' 3 2 = size.code ∧
      ((d.extractLsb' 0 3 = 0b000#3 ∧ i = .bar0Read size r.offset) ∨
        (d.extractLsb' 0 3 = 0b100#3 ∧ i = .bar0Write size r.offset r.wdata) ∨
        (d.extractLsb' 0 3 = 0b001#3 ∧ i = .bar1Read size r.offset) ∨
        (d.extractLsb' 0 3 = 0b101#3 ∧ i = .bar1Write size r.offset r.wdata) ∨
        (d.extractLsb' 0 3 = 0b010#3 ∧ i = .bar2Read size r.offset) ∨
        (d.extractLsb' 0 3 = 0b110#3 ∧ i = .bar2Write size r.offset r.wdata)))

/-- R84, R82: the descriptors of the table, for every width, decode to their kind; a BAR0 width that
BAR0_WIDTHS does not admit is refused. -/
def Obligations.TableDescriptorsDecode : Prop :=
  ∀ (ws : Bar0Widths) (r : Request) (size : Size),
    r.descriptor.extractLsb' 3 2 = size.code →
    (r.descriptor &&& 0xE7#8 = 0x00#8 → Bar.admits ws .bar0 size = true →
      decode ws (.transaction r) = .ok (.bar0Read size r.offset)) ∧
    (r.descriptor &&& 0xE7#8 = 0x04#8 → Bar.admits ws .bar0 size = true →
      decode ws (.transaction r) = .ok (.bar0Write size r.offset r.wdata)) ∧
    ((r.descriptor &&& 0xE7#8 = 0x00#8 ∨ r.descriptor &&& 0xE7#8 = 0x04#8) → Bar.admits ws .bar0 size = false →
      decode ws (.transaction r) = .refuse .widthNotAdmitted) ∧
    (r.descriptor &&& 0xE7#8 = 0x01#8 → decode ws (.transaction r) = .ok (.bar1Read size r.offset)) ∧
    (r.descriptor &&& 0xE7#8 = 0x05#8 → decode ws (.transaction r) = .ok (.bar1Write size r.offset r.wdata)) ∧
    (r.descriptor &&& 0xE7#8 = 0x02#8 → decode ws (.transaction r) = .ok (.bar2Read size r.offset)) ∧
    (r.descriptor &&& 0xE7#8 = 0x06#8 → decode ws (.transaction r) = .ok (.bar2Write size r.offset r.wdata))

/-- R87: `control[2:0]` decodes to the command that its priority selects, whatever `control[31:3]` holds. -/
def Obligations.CommandBitsDecode : Prop :=
  ∀ (ws : Bar0Widths) (b : Block) (c : Command), Selects b c ↔ decode ws (.command b.commandBits) = .ok c.instr

/-! ### The step -/

/-- Log entry 3, R60, R61: a step whose oldest request decodes runs exactly the decoded instruction, on the state without
that request; nothing else is added around it. -/
def Obligations.StepRunsDecoded : Prop :=
  ∀ (s : State) (r : Request) (rest : List Request) (i : Instr), s.requests = r :: rest →
    decode s.params.bar0Widths (.transaction r) = .ok i → step s = exec i { s with requests := rest }

/-- Log entry 3 (DESIGN CHOICE): with no request delivered a step changes nothing; the device has no background thread. -/
def Obligations.StepWithoutRequest : Prop := ∀ s : State, s.requests = [] → step s = .next s

/-- Log entries 6 and 7 (DESIGN CHOICE): a descriptor placed by `withFetchWord` is the transaction that the next step runs,
with zero operands, and that step leaves the other requests as they were. -/
def Obligations.PlacedWordRunsNext : Prop :=
  ∀ (s : State) (d : BitVec 8) (i : Instr),
    decode s.params.bar0Widths (.transaction ⟨d, 0#64, 0#64⟩) = .ok i →
    step (s.withFetchWord 8 d.toNat) = exec i s

/-- R170, R128: a transaction that decodes completes, with exactly one event; a read returns a value of its width, and a
write completes, a BAR2 store as BAR2_WRITE_HOST says. That the model marks the completion `hostFault` under host_fault is
its own choice (DESIGN CHOICE, log entry 8), and so are the request queue and the recorded event (log entries 3 and 4). -/
def Obligations.EveryTransactionCompletes : Prop :=
  ∀ (s : State) (r : Request) (rest : List Request) (i : Instr), s.requests = r :: rest →
    decode s.params.bar0Widths (.transaction r) = .ok i →
    ∃ t e, step s = .next t ∧ t.params = s.params ∧ t.requests = rest ∧ t.history = s.history ++ [e] ∧
      (∀ size offset, (i = .bar0Read size offset ∨ i = .bar1Read size offset ∨ i = .bar2Read size offset) →
        ∃ v, e.response = .data v ∧ v.toNat < 2 ^ (8 * size.bytes)) ∧
      (∀ size offset wdata, (i = .bar0Write size offset wdata ∨ i = .bar1Write size offset wdata) →
        e.response = .complete) ∧
      (∀ size offset wdata, i = .bar2Write size offset wdata →
        (s.params.bar2WriteHost = .ignored → e.response = .complete) ∧
        (s.params.bar2WriteHost = .hostFault → e.response = .hostFault))

/-- R170, R88: no step faults, and a step refuses exactly when its oldest request is refused by the decoder, with the
decoder's reason. -/
def Obligations.StopsOnlyAtBoundary : Prop :=
  ∀ s : State, (∀ f, step s ≠ .fault f) ∧
    (∀ e, step s = .refused e ↔ ∃ r rest reason, s.requests = r :: rest ∧
      decode s.params.bar0Widths (.transaction r) = .refuse reason ∧ e = .boundary reason)

/-- R171: no rule reads the recorded events back: with another history a step does the same and adds the same events. -/
def Obligations.HistoryIsNotRead : Prop :=
  ∀ (s : State) (h : List Event),
    (∀ t, step s = .next t → ∃ added, t.history = s.history ++ added ∧
      step { s with history := h } = .next { t with history := h ++ added }) ∧
    (∀ r, step s = .refused r → step { s with history := h } = .refused r)

/-- R61: a transaction sees none of those after it: delivering one more first or after the step gives the same. -/
def Obligations.NoLookAhead : Prop :=
  ∀ (s : State) (r : Request), s.requests ≠ [] →
    (∀ t, step s = .next t → step (s.deliver r) = .next (t.deliver r)) ∧
    (∀ e, step s = .refused e → step (s.deliver r) = .refused e)

/-! ### Reads -/

/-- R100: the value that BAR0_READ returns, at every offset. -/
def Obligations.Bar0ReadResult : Prop :=
  ∀ (s : State) (size : Size) (offset : Word64), Bar.admits s.params.bar0Widths .bar0 size = true →
    ∃ e, exec (.bar0Read size offset) s = .next (s.record e) ∧ ReadsWindow s.block.rf 64 offset size e

/-- R120: the value that BAR1_READ returns, at every offset and width. -/
def Obligations.Bar1ReadResult : Prop :=
  ∀ (s : State) (size : Size) (offset : Word64),
    ∃ e, exec (.bar1Read size offset) s = .next (s.record e) ∧ ReadsWindow s.block.input 4096 offset size e

/-- R126: the value that BAR2_READ returns, at every offset and width. -/
def Obligations.Bar2ReadResult : Prop :=
  ∀ (s : State) (size : Size) (offset : Word64),
    ∃ e, exec (.bar2Read size offset) s = .next (s.record e) ∧ ReadsWindow s.block.output 4096 offset size e

/-- R58 (its first clause): a read changes no byte, no register and nothing else but the record of its event. -/
def Obligations.ReadsFrame : Prop :=
  ∀ (i : Instr) (s t : State), IsRead i → exec i s = .next t →
    t.block = s.block ∧ t.params = s.params ∧ t.requests = s.requests ∧ ∃ e, t.history = s.history ++ [e]

/-- R53, R100: mixed-width reads of the register file see one little-endian byte image. -/
def Obligations.MixedWidthReads : Prop :=
  ∀ s : State,
    (Bar.admits s.params.bar0Widths .bar0 .b1 = true →
      exec (.bar0Read .b1 0x00#64) s = .next (s.record ⟨.okRead, .data ((s.block.control.extractLsb' 0 8).setWidth 64)⟩)) ∧
    (Bar.admits s.params.bar0Widths .bar0 .b2 = true →
      exec (.bar0Read .b2 0x0C#64) s = .next (s.record ⟨.okRead, .data ((s.block.status.extractLsb' 0 16).setWidth 64)⟩)) ∧
    (Bar.admits s.params.bar0Widths .bar0 .b4 = true →
      exec (.bar0Read .b4 0x02#64) s = .next (s.record ⟨.okRead,
        .data ((s.block.controlW1s.extractLsb' 0 16 ++ s.block.control.extractLsb' 16 16).setWidth 64)⟩) ∧
      exec (.bar0Read .b4 0x0A#64) s = .next (s.record ⟨.okRead,
        .data ((s.block.status.extractLsb' 0 16 ++ s.block.controlW1c.extractLsb' 16 16).setWidth 64)⟩))

/-- R101: between transactions a read of `control` never shows a command bit, and a read of `status` shows Idle or Done. -/
def Obligations.ReadsBetweenTransactions : Prop :=
  ∀ s : State, s.Inv → Bar.admits s.params.bar0Widths .bar0 .b4 = true →
    exec (.bar0Read .b4 0x00#64) s =
      .next (s.record ⟨.okRead, .data ((s.block.control.extractLsb' 3 29 ++ 0#3).setWidth 64)⟩) ∧
    (exec (.bar0Read .b4 0x0C#64) s = .next (s.record ⟨.okRead, .data 0x00000000#64⟩) ∨
      exec (.bar0Read .b4 0x0C#64) s = .next (s.record ⟨.okRead, .data 0x00000002#64⟩))

/-! ### Bounds and widths -/

/-- R56, R57: an access is in range by an exact sum that never wraps; one that is not is rejected whole: a read returns the
all-ones sentinel of its width, a write changes no byte. (A BAR2 store has no bounds check, R128, and a BAR0 write in
range may still be dropped, R104: other statements say what they do.) -/
def Obligations.OutOfRangeRejected : Prop :=
  ∀ (s : State) (size : Size) (offset wdata : Word64),
    (4096 < offset.toNat + size.bytes →
      exec (.bar1Read size offset) s = .next (s.record ⟨.outOfRange, .data (ones size.bytes)⟩) ∧
      exec (.bar2Read size offset) s = .next (s.record ⟨.outOfRange, .data (ones size.bytes)⟩) ∧
      exec (.bar1Write size offset wdata) s = .next (s.record ⟨.outOfRange, .complete⟩)) ∧
    (64 < offset.toNat + size.bytes → Bar.admits s.params.bar0Widths .bar0 size = true →
      exec (.bar0Read size offset) s = .next (s.record ⟨.outOfRange, .data (ones size.bytes)⟩) ∧
      exec (.bar0Write size offset wdata) s = .next (s.record ⟨.outOfRange, .complete⟩)) ∧
    (offset.toNat + size.bytes ≤ 4096 →
      (∃ v, exec (.bar1Read size offset) s = .next (s.record ⟨.okRead, .data v⟩)) ∧
      (∃ v, exec (.bar2Read size offset) s = .next (s.record ⟨.okRead, .data v⟩)) ∧
      (∃ b, exec (.bar1Write size offset wdata) s = .next ((s.withBlock b).record ⟨.okWrite, .complete⟩))) ∧
    (offset.toNat + size.bytes ≤ 64 → Bar.admits s.params.bar0Widths .bar0 size = true →
      ∃ v, exec (.bar0Read size offset) s = .next (s.record ⟨.okRead, .data v⟩)) ∧
    ones 1 = 0xFF#64 ∧ ones 2 = 0xFFFF#64 ∧ ones 4 = 0xFFFFFFFF#64 ∧ ones 8 = 0xFFFFFFFFFFFFFFFF#64

/-- R55, R88: a BAR0 access whose width BAR0_WIDTHS does not admit is refused, and the data windows admit every width. -/
def Obligations.WidthAdmission : Prop :=
  ∀ (s : State) (size : Size) (offset wdata : Word64),
    ((size = .b8 ∨ (s.params.bar0Widths = .only4 ∧ size ≠ .b4)) →
      exec (.bar0Read size offset) s = .refused (.boundary .widthNotAdmitted) ∧
      exec (.bar0Write size offset wdata) s = .refused (.boundary .widthNotAdmitted)) ∧
    (¬ (size = .b8 ∨ (s.params.bar0Widths = .only4 ∧ size ≠ .b4)) →
      (∃ t, exec (.bar0Read size offset) s = .next t) ∧ (∃ t, exec (.bar0Write size offset wdata) s = .next t)) ∧
    (∃ t, exec (.bar1Read size offset) s = .next t) ∧ (∃ t, exec (.bar1Write size offset wdata) s = .next t) ∧
    (∃ t, exec (.bar2Read size offset) s = .next t) ∧ (∃ t, exec (.bar2Write size offset wdata) s = .next t)

/-! ### BAR0_WRITE -/

/-- R104: a BAR0 write that is not accepted changes nothing and is only recorded, as out of range or as a read-only drop. -/
def Obligations.Bar0WriteDropped : Prop :=
  ∀ (s : State) (size : Size) (offset wdata : Word64), Bar.admits s.params.bar0Widths .bar0 size = true →
    (64 < offset.toNat + size.bytes →
      exec (.bar0Write size offset wdata) s = .next (s.record ⟨.outOfRange, .complete⟩)) ∧
    (offset.toNat + size.bytes ≤ 64 → offset.toNat < 0x10 → 0x0C < offset.toNat + size.bytes →
      exec (.bar0Write size offset wdata) s = .next (s.record ⟨.readOnlyDrop, .complete⟩)) ∧
    (Accepted size offset ↔
      ∃ b, exec (.bar0Write size offset wdata) s = .next ((s.withBlock b).record ⟨.okWrite, .complete⟩))

/-- R103, R105, R142: an accepted BAR0 write stores its bytes and then runs, before it completes, exactly the command that
the post-write `control[2:0]` selects. -/
def Obligations.Bar0WriteRunsCommand : Prop :=
  ∀ (s : State) (size : Size) (offset wdata : Word64) (c : Command),
    Bar.admits s.params.bar0Widths .bar0 size = true → Accepted size offset →
    Selects (s.block.mergeRf size offset wdata) c →
    StoredAt s.block.rf (s.block.mergeRf size offset wdata).rf size offset wdata ∧
    (s.block.mergeRf size offset wdata).input = s.block.input ∧
    (s.block.mergeRf size offset wdata).output = s.block.output ∧
    ∃ t, exec c.instr (s.withBlock (s.block.mergeRf size offset wdata)) = .next t ∧
      exec (.bar0Write size offset wdata) s = .next (t.record ⟨.okWrite, .complete⟩)

/-- R152, R103: an accepted BAR0 write that leaves `control[2:0]` zero stores its bytes and does nothing else. -/
def Obligations.Bar0WriteWithoutCommand : Prop :=
  ∀ (s : State) (size : Size) (offset wdata : Word64), Bar.admits s.params.bar0Widths .bar0 size = true →
    Accepted size offset → (s.block.mergeRf size offset wdata).commandBits = 0#3 →
    ∃ t, exec (.bar0Write size offset wdata) s = .next t ∧ StoredAt s.block.rf t.block.rf size offset wdata ∧
      t.block.input = s.block.input ∧ t.block.output = s.block.output ∧
      t.history = s.history ++ [⟨.okWrite, .complete⟩]

/-- The frame of BAR0_WRITE (R103, R104): bytes of the register file outside those stored change only by a command it
runs, START and STOP touch only bytes 0x00 and 0x0C beyond them, and the data windows change only by START and RESET. -/
def Obligations.Bar0WriteFrame : Prop :=
  ∀ (s t : State) (size : Size) (offset wdata : Word64), exec (.bar0Write size offset wdata) s = .next t →
    t.params = s.params ∧ t.requests = s.requests ∧ (∃ e, t.history = s.history ++ [e]) ∧
    (¬ Accepted size offset → t.block = s.block) ∧
    (Selects (s.block.mergeRf size offset wdata) .none →
      (∀ x, (x < offset.toNat ∨ offset.toNat + size.bytes ≤ x) → t.block.rf.read x = s.block.rf.read x) ∧
      SameBytes s.block.input t.block.input ∧ SameBytes s.block.output t.block.output) ∧
    (Selects (s.block.mergeRf size offset wdata) .stop →
      (∀ x, (x < offset.toNat ∨ offset.toNat + size.bytes ≤ x) → x ≠ 0x00 → x ≠ 0x0C →
        t.block.rf.read x = s.block.rf.read x) ∧
      SameBytes s.block.input t.block.input ∧ SameBytes s.block.output t.block.output) ∧
    (Selects (s.block.mergeRf size offset wdata) .start →
      ∀ x, (x < offset.toNat ∨ offset.toNat + size.bytes ≤ x) → x ≠ 0x00 → x ≠ 0x0C →
        t.block.rf.read x = s.block.rf.read x)

/-- R106 (derived in the spec from R100, R103, R104 and R105): an accepted BAR0 write that runs no command reads back as written; it runs none when it does not cover byte 0x00
or that byte's bits 2:0 are clear; a write that overlaps `status` leaves the read after it as it was; and after any
BAR0 write a read returns what the write left. -/
def Obligations.Bar0ReadBack : Prop :=
  ∀ (s : State) (size : Size) (offset wdata : Word64), Bar.admits s.params.bar0Widths .bar0 size = true →
    (Accepted size offset → (s.block.mergeRf size offset wdata).commandBits = 0#3 →
      ∃ t, exec (.bar0Write size offset wdata) s = .next t ∧
        exec (.bar0Read size offset) t = .next (t.record ⟨.okRead, .data (wdata &&& ones size.bytes)⟩)) ∧
    (s.Inv → Accepted size offset → (offset ≠ 0#64 ∨ (byteOf wdata 0).extractLsb' 0 3 = 0#3) →
      (s.block.mergeRf size offset wdata).commandBits = 0#3) ∧
    (offset.toNat < 0x10 → 0x0C < offset.toNat + size.bytes →
      ∃ t e, exec (.bar0Write size offset wdata) s = .next t ∧ exec (.bar0Read size offset) s = .next (s.record e) ∧
        exec (.bar0Read size offset) t = .next (t.record e)) ∧
    (∀ t, exec (.bar0Write size offset wdata) s = .next t →
      ∃ e, exec (.bar0Read size offset) t = .next (t.record e) ∧ ReadsWindow t.block.rf 64 offset size e)

/-- R24, R25, R29: a write that lies wholly in `control_w1s`, `control_w1c` or the padding stores its bytes, reads back as
written, and changes neither `control` nor `status` nor a data window. -/
def Obligations.StorageOnlyRegisters : Prop :=
  ∀ (s : State) (size : Size) (offset wdata : Word64), s.Inv → Bar.admits s.params.bar0Widths .bar0 size = true →
    ((0x04 ≤ offset.toNat ∧ offset.toNat + size.bytes ≤ 0x0C) ∨ (0x10 ≤ offset.toNat ∧ offset.toNat + size.bytes ≤ 0x40)) →
    ∃ t, exec (.bar0Write size offset wdata) s = .next t ∧ StoredAt s.block.rf t.block.rf size offset wdata ∧
      t.block.control = s.block.control ∧ t.block.status = s.block.status ∧
      t.block.input = s.block.input ∧ t.block.output = s.block.output ∧
      exec (.bar0Read size offset) t = .next (t.record ⟨.okRead, .data (wdata &&& ones size.bytes)⟩)

/-- R105 and 90_conflicts.md C1: between transactions the hook can fire only for a write that covers byte 0x00 of the
register file, so the two readings of the source agree. -/
def Obligations.HookFiresOnlyOnByteZero : Prop :=
  ∀ (s : State) (size : Size) (offset wdata : Word64) (c : Command), s.Inv → Accepted size offset → 0 < offset.toNat →
    Selects (s.block.mergeRf size offset wdata) c → c = .none

/-! ### The data windows -/

/-- R123, R124: a BAR1 write in range stores its bytes and has no other effect; out of range it is dropped whole. -/
def Obligations.Bar1WriteResult : Prop :=
  ∀ (s : State) (size : Size) (offset wdata : Word64),
    (offset.toNat + size.bytes ≤ 4096 →
      ∃ m, StoredAt s.block.input m size offset wdata ∧
        exec (.bar1Write size offset wdata) s =
          .next ((s.withBlock (s.block.withInput m)).record ⟨.okWrite, .complete⟩)) ∧
    (4096 < offset.toNat + size.bytes →
      exec (.bar1Write size offset wdata) s = .next (s.record ⟨.outOfRange, .complete⟩))

/-- The frame of BAR1_WRITE (R123, R124): every register, all of `output`, and every byte of `input` outside those stored
are as before. -/
def Obligations.Bar1WriteFrame : Prop :=
  ∀ (s t : State) (size : Size) (offset wdata : Word64), exec (.bar1Write size offset wdata) s = .next t →
    t.params = s.params ∧ t.requests = s.requests ∧ (∃ e, t.history = s.history ++ [e]) ∧
    SameBytes s.block.rf t.block.rf ∧ SameBytes s.block.output t.block.output ∧
    (∀ x, (x < offset.toNat ∨ offset.toNat + size.bytes ≤ x) → t.block.input.read x = s.block.input.read x) ∧
    (4096 < offset.toNat + size.bytes → SameBytes s.block.input t.block.input)

/-- R125: a BAR1 write in range, then a BAR1 read of the same width and offset in any state that kept those bytes, returns
the bytes written. -/
def Obligations.Bar1RoundTrip : Prop :=
  ∀ (s t u : State) (size : Size) (offset wdata : Word64), offset.toNat + size.bytes ≤ 4096 →
    exec (.bar1Write size offset wdata) s = .next t →
    (∀ x, offset.toNat ≤ x → x < offset.toNat + size.bytes → u.block.input.read x = t.block.input.read x) →
    exec (.bar1Read size offset) u = .next (u.record ⟨.okRead, .data (wdata &&& ones size.bytes)⟩)

/-- R128, R10: a driver store to BAR2 changes nothing of the block, in range or not, and completes as BAR2_WRITE_HOST says.
The spec leaves the host's report outside the block; that the model records it as the response `hostFault` is its own
choice (DESIGN CHOICE, log entry 8). -/
def Obligations.Bar2WriteResult : Prop :=
  ∀ (s : State) (size : Size) (offset wdata : Word64),
    (s.params.bar2WriteHost = .ignored →
      exec (.bar2Write size offset wdata) s = .next (s.record ⟨.noWritePath, .complete⟩)) ∧
    (s.params.bar2WriteHost = .hostFault →
      exec (.bar2Write size offset wdata) s = .next (s.record ⟨.noWritePath, .hostFault⟩))

/-- R34, R129: `input` changes only by a BAR1 write that covers the byte, by START and by RESET. -/
def Obligations.InputChangesOnlyBy : Prop :=
  ∀ (i : Instr) (s t : State) (x : Nat), exec i s = .next t → t.block.input.read x ≠ s.block.input.read x →
    (∃ size offset wdata, i = .bar1Write size offset wdata ∧ offset.toNat ≤ x ∧ x < offset.toNat + size.bytes ∧
      offset.toNat + size.bytes ≤ 4096) ∨ Runs i s .start ∨ Runs i s .reset

/-- R35, R129: `output` changes only by START and by RESET, and then holds COMPUTE's result or zero. -/
def Obligations.OutputChangesOnlyBy : Prop :=
  ∀ (i : Instr) (s t : State), exec i s = .next t → ¬ SameBytes s.block.output t.block.output →
    (Runs i s .start ∧ ∀ x, t.block.output.read x =
      if h : x < 4096 then runCompute s.params s.block.input.bytes ⟨x, h⟩ else 0x00#8) ∨
    (Runs i s .reset ∧ ∀ x, t.block.output.read x = 0x00#8)

/-! ### The Command Engine -/

/-- R143, and R191 which the spec derives from it: RESET gives the creation state of the block and keeps all else, as a command and as the effect of any
accepted BAR0 write that leaves `control.reset` set, whatever the other bits and the state. -/
def Obligations.ResetResult : Prop :=
  ∀ (s : State) (size : Size) (offset wdata : Word64),
    exec .cmdReset s = .next (s.withBlock State.reset.block) ∧
    (Bar.admits s.params.bar0Widths .bar0 size = true → Accepted size offset →
      (s.block.mergeRf size offset wdata).control.getLsbD 2 = true →
      exec (.bar0Write size offset wdata) s = .next ((s.withBlock State.reset.block).record ⟨.okWrite, .complete⟩))

/-- R146: START's net effect and frame, as a command and as the effect of an accepted BAR0 write that leaves
`control.start` set and `control.reset` clear. -/
def Obligations.StartResult : Prop :=
  ∀ (s : State) (size : Size) (offset wdata : Word64),
    (∃ b, exec .cmdStart s = .next (s.withBlock b) ∧ StartEffect s.params s.block b) ∧
    (Bar.admits s.params.bar0Widths .bar0 size = true → Accepted size offset →
      (s.block.mergeRf size offset wdata).control.getLsbD 2 = false →
      (s.block.mergeRf size offset wdata).control.getLsbD 0 = true →
      ∃ b, exec (.bar0Write size offset wdata) s = .next ((s.withBlock b).record ⟨.okWrite, .complete⟩) ∧
        StartEffect s.params (s.block.mergeRf size offset wdata) b)

/-- R149: STOP's net effect and frame, as a command and as the effect of an accepted BAR0 write that leaves `control.stop`
set and `control.start` and `control.reset` clear. -/
def Obligations.StopResult : Prop :=
  ∀ (s : State) (size : Size) (offset wdata : Word64),
    (∃ b, exec .cmdStop s = .next (s.withBlock b) ∧ StopEffect s.block b) ∧
    (Bar.admits s.params.bar0Widths .bar0 size = true → Accepted size offset →
      (s.block.mergeRf size offset wdata).control.getLsbD 2 = false →
      (s.block.mergeRf size offset wdata).control.getLsbD 0 = false →
      (s.block.mergeRf size offset wdata).control.getLsbD 1 = true →
      ∃ b, exec (.bar0Write size offset wdata) s = .next ((s.withBlock b).record ⟨.okWrite, .complete⟩) ∧
        StopEffect (s.block.mergeRf size offset wdata) b)

/-- R152: NONE is no transition. -/
def Obligations.NoneResult : Prop := ∀ s : State, exec .cmdNone s = .next s

/-- R9, R146: what `output` holds after START: FILL_BYTE everywhere under the default COMPUTE, the former `input` under the
identity, and whatever the plugged-in strategy gives for the former `input` otherwise. -/
def Obligations.ComputeResult : Prop :=
  ∀ (s t : State) (x : Fin 4096), exec .cmdStart s = .next t →
    (s.params.strategy = .fill → t.block.output.read x.val = s.params.fillByte) ∧
    (s.params.strategy = .identity → t.block.output.read x.val = s.block.input.read x.val) ∧
    (∀ k, s.params.strategy = .pluggable k → t.block.output.read x.val = Config.compute k s.block.input.bytes x) ∧
    Params.default.strategy = .fill ∧ Params.default.fillByte = 0x01#8

/-- R31, R30: `busy` and `done` are never both set: each transition leaves one of the three encodings, START passes through
Busy, and no instruction makes both set. -/
def Obligations.NeverBusyAndDone : Prop :=
  (∀ (p : Params) (b : Block), b.startEnter.engine = some .busy ∧ (b.startEnter.startCompute p).engine = some .busy ∧
    (b.startTransition p).engine = some .done ∧ b.stopTransition.engine = some .idle ∧
    b.resetTransition.engine = some .idle) ∧
  (∀ (i : Instr) (s t : State), exec i s = .next t →
    ¬ (s.block.busy = true ∧ s.block.done = true) → ¬ (t.block.busy = true ∧ t.block.done = true))

/-- R155 (derived in the spec from R142, R143, R146, R149 and R152): the transition table, for the states a transaction can
find. -/
def Obligations.TransitionTable : Prop :=
  ∀ (s t : State) (size : Size) (offset wdata : Word64) (c : Command), s.Inv → Accepted size offset →
    Selects (s.block.mergeRf size offset wdata) c → exec (.bar0Write size offset wdata) s = .next t →
    (s.block.engine = some .idle ∨ s.block.engine = some .done) ∧
    t.block.engine = (match c with
      | .none => s.block.engine
      | .stop => some .idle
      | .start => some .done
      | .reset => some .idle) ∧
    (match c with
      | .none => t.block.input = s.block.input ∧ t.block.output = s.block.output
      | .stop => t.block.input = s.block.input ∧ t.block.output = s.block.output
      | .start => (∀ x, t.block.input.read x = 0x00#8) ∧ ∀ x : Fin 4096, t.block.output.read x.val =
          runCompute s.params s.block.input.bytes x
      | .reset => t.block = State.reset.block)

/-- R141: running each selected transition in turn, the reading that the spec did not take, gives the same block as running
only the one of highest priority. -/
def Obligations.OneTransitionOrInTurn : Prop := ∀ (p : Params) (b : Block), b.hook p = transitionsInTurn p b

/-- R26: no instruction changes `status` but by a transition that it runs, and none changes `status[31:2]` unless by
RESET. -/
def Obligations.StatusChangesOnlyByEngine : Prop :=
  ∀ (i : Instr) (s t : State), exec i s = .next t →
    (t.block.status ≠ s.block.status → Runs i s .start ∨ Runs i s .stop ∨ Runs i s .reset) ∧
    (t.block.status.extractLsb' 2 30 ≠ s.block.status.extractLsb' 2 30 →
      Runs i s .reset ∧ t.block.status.extractLsb' 2 30 = 0#30)

/-- R154, R194: the first poll after a START write already reads Done, from any state between transactions. -/
def Obligations.FirstPollReadsDone : Prop :=
  ∀ s : State, s.Inv → Bar.admits s.params.bar0Widths .bar0 .b4 = true →
    ∃ t, exec (.bar0Write .b4 0x00#64 0x00000001#64) s = .next t ∧
      exec (.bar0Read .b4 0x0C#64) t = .next (t.record ⟨.okRead, .data 0x00000002#64⟩) ∧
      exec (.bar0Read .b4 0x00#64) t = .next (t.record ⟨.okRead, .data 0x00000000#64⟩)

/-- R13, R31: an assignment of `control.start`, of `control.stop`, or of `status.busy` and `status.done`, which the model
writes together (DEDUCED, log entry 11), rewrites those bits alone. -/
def Obligations.FieldAssignment : Prop :=
  ∀ (b : Block) (v : Bool) (j : Nat), j < 32 →
    (b.setStart v).control.getLsbD j = (if j = 0 then v else b.control.getLsbD j) ∧
    (b.setStop v).control.getLsbD j = (if j = 1 then v else b.control.getLsbD j) ∧
    (∀ x, x ≠ 0x00 → (b.setStart v).rf.read x = b.rf.read x ∧ (b.setStop v).rf.read x = b.rf.read x) ∧
    (∀ busy done : Bool,
      (b.setBusyDone busy done).status.getLsbD j =
        (if j = 0 then busy else if j = 1 then done else b.status.getLsbD j) ∧
      (∀ x, x ≠ 0x0C → (b.setBusyDone busy done).rf.read x = b.rf.read x))

/-- R59 (derived in the spec from R58, R143, R146 and R149): reads, BAR1 writes and BAR0 writes that do not run START are
idempotent; a second START write computes on the cleared `input`, so that a START write is not idempotent in general: under
the identity strategy (a name of log entry 2) it leaves another `output` wherever `input` was not zero, and there is such a
state. -/
def Obligations.Idempotency : Prop :=
  (∀ (i : Instr) (s t : State), IsRead i → exec i s = .next t →
    ∃ e, t = s.record e ∧ exec i t = .next (t.record e)) ∧
  (∀ (s t u : State) (size : Size) (offset wdata : Word64), exec (.bar1Write size offset wdata) s = .next t →
    exec (.bar1Write size offset wdata) t = .next u →
    SameBytes t.block.input u.block.input ∧ u.block.rf = t.block.rf ∧ u.block.output = t.block.output) ∧
  (∀ (s t u : State) (size : Size) (offset wdata : Word64), s.Inv → exec (.bar0Write size offset wdata) s = .next t →
    exec (.bar0Write size offset wdata) t = .next u →
    SameBytes t.block.rf u.block.rf ∧ SameBytes t.block.input u.block.input ∧
    (¬ Runs (.bar0Write size offset wdata) s .start → SameBytes t.block.output u.block.output) ∧
    (Runs (.bar0Write size offset wdata) s .start → ∀ x : Fin 4096,
      u.block.output.read x.val = runCompute s.params (fun _ => 0x00#8) x)) ∧
  (∀ (s : State) (size : Size) (offset wdata : Word64) (x : Nat), s.Inv →
    Bar.admits s.params.bar0Widths .bar0 size = true → Runs (.bar0Write size offset wdata) s .start →
    s.params.strategy = .identity → x < 4096 → s.block.input.read x ≠ 0x00#8 →
    ∃ t u, exec (.bar0Write size offset wdata) s = .next t ∧ exec (.bar0Write size offset wdata) t = .next u ∧
      t.block.output.read x = s.block.input.read x ∧ u.block.output.read x = 0x00#8) ∧
  (∃ (s t u : State) (size : Size) (offset wdata : Word64), s.Inv ∧ Runs (.bar0Write size offset wdata) s .start ∧
    exec (.bar0Write size offset wdata) s = .next t ∧ exec (.bar0Write size offset wdata) t = .next u ∧
    ¬ SameBytes t.block.output u.block.output)

/-! ### Invariants -/

/-- R32, R33: every step keeps the invariant that holds between transactions, with the canonical form of the byte arrays
(the model's own, log entry 13). -/
def Obligations.StepKeepsInvariant : Prop := ∀ s t : State, s.Inv → step s = .next t → t.Inv

/-- R27, R31, and R28, R32, R33 which the spec derives: in every state of every run, whatever the parameters and the
transactions, `control[2:0]` is 0, `status` is Idle or Done, `error` and the reserved bits are 0, and the engine is Idle or
Done. What counts as a run (`Reachable`) is the model's choice (DESIGN CHOICE, log entry 17), and so is the canonical form of
the byte arrays in `Inv` (DESIGN CHOICE, log entry 13). -/
def Obligations.ReachableStates : Prop :=
  ∀ s : State, Reachable s → s.Inv ∧ s.block.commandBits = 0#3 ∧ s.block.error = 0#4 ∧
    s.block.status.extractLsb' 6 26 = 0#26 ∧ (s.block.engine = some .idle ∨ s.block.engine = some .done)

/-- R6, R20 and the model's own memory form: every instruction, a command among them, keeps the three byte arrays in
canonical form and inside their windows, in every state that has them so. -/
def Obligations.ExecKeepsCanonicalForm : Prop :=
  ∀ (i : Instr) (s t : State), s.block.WellFormed → exec i s = .next t → t.block.WellFormed

/-- The model's own memory form: windows in canonical form that read the same at every offset are equal data. -/
def Obligations.CanonicalFormIsUnique : Prop :=
  ∀ (len : Nat) (m m' : Memory), m.wf len = true → m'.wf len = true → SameBytes m m' → m = m'

/-- Log entry 1: no step changes the parameters, and a step takes requests only from the front of the queue. -/
def Obligations.ParametersAreFixed : Prop :=
  ∀ s t : State, step s = .next t → t.params = s.params ∧ t.requests = s.requests.tail
end

