-- ==== Sys2Proof/Laws/Decode.lean ====
section
/-! SUPPORT. The fields of a descriptor that was built from a window, a direction and a width (R81, R82). -/

namespace Sys2Proof

@[simp] theorem Size.ofCode_code (size : Size) : Size.ofCode size.code = size := by cases size <;> rfl

@[simp] theorem Bar.ofCode_code (bar : Bar) : Bar.ofCode bar.code = some bar := by cases bar <;> rfl

/-- The reserved bits of a descriptor that is built are zero. -/
theorem descriptorOf_reserved (bar : Bar) (dir : Dir) (size : Size) :
    (descriptorOf bar dir size).extractLsb' 5 3 = 0#3 := by
  cases bar <;> cases dir <;> cases size <;> decide

/-- The width code of a descriptor that is built. -/
theorem descriptorOf_sz (bar : Bar) (dir : Dir) (size : Size) :
    (descriptorOf bar dir size).extractLsb' 3 2 = size.code := by
  cases bar <;> cases dir <;> cases size <;> decide

/-- The direction of a descriptor that is built. -/
theorem descriptorOf_wr (bar : Bar) (dir : Dir) (size : Size) :
    Dir.ofBit ((descriptorOf bar dir size).getLsbD 2) = dir := by
  cases bar <;> cases dir <;> cases size <;> decide

/-- The window of a descriptor that is built. -/
theorem descriptorOf_bar (bar : Bar) (dir : Dir) (size : Size) :
    (descriptorOf bar dir size).extractLsb' 0 2 = bar.code := by
  cases bar <;> cases dir <;> cases size <;> decide

/-- Decoding a request, written out over the fields of its descriptor (R81, R92). -/
theorem decode_transaction (ws : Bar0Widths) (d : BitVec 8) (offset wdata : Word64) :
    decode ws (.transaction ⟨d, offset, wdata⟩) =
      if d.extractLsb' 5 3 = 0#3 then
        match Bar.ofCode (d.extractLsb' 0 2) with
        | none => .refuse .noWindow
        | some bar =>
          if bar.admits ws (Size.ofCode (d.extractLsb' 3 2)) then
            .ok (Instr.ofTransaction bar (Dir.ofBit (d.getLsbD 2)) (Size.ofCode (d.extractLsb' 3 2)) offset wdata)
          else .refuse .widthNotAdmitted
      else .refuse .reservedBits := rfl

/-- BAR1 admits every width (R7). -/
@[simp] theorem Bar.admits_bar1 (ws : Bar0Widths) (size : Size) : Bar.admits ws .bar1 size = true := by
  cases size <;> rfl

/-- BAR2 admits every width (R7). -/
@[simp] theorem Bar.admits_bar2 (ws : Bar0Widths) (size : Size) : Bar.admits ws .bar2 size = true := by
  cases size <;> rfl

/-- A width is from 1 to 8 bytes (R82). -/
theorem Size.bytes_pos (size : Size) : 0 < size.bytes := by cases size <;> decide

theorem Size.bytes_le (size : Size) : size.bytes ≤ 8 := by cases size <;> decide

end Sys2Proof
end

