-- ==== Sys2Proof/Laws/Memory.lean ====
section
/-! SUPPORT. What each operation on a window's bytes does, once: the byte read after a write, a store, a fill; the bytes of a
load; and that every operation keeps the canonical form. -/

namespace Sys2Proof.Machine

@[simp] theorem Memory.read_nil (x : Nat) : Memory.read [] x = 0#8 := rfl

@[simp] theorem Memory.read_zeros (x : Nat) : Memory.zeros.read x = 0#8 := rfl

theorem Memory.read_erase (m : Memory) (a x : Nat) : (m.erase a).read x = if x = a then 0#8 else m.read x := by
  induction m with
  | nil => simp [Memory.erase, Memory.read, Memory.unlisted]
  | cons e m ih =>
    obtain ⟨k, c⟩ := e
    simp only [Memory.erase]
    split <;> simp only [Memory.read, ih] <;> split <;> simp_all <;> omega

theorem Memory.read_insert (m : Memory) (a x : Nat) (b : Byte) :
    (m.insert a b).read x = if x = a then b else m.read x := by
  induction m with
  | nil => simp only [Memory.insert, Memory.read, eq_comm]
  | cons e m ih =>
    obtain ⟨k, c⟩ := e
    simp only [Memory.insert]
    split
    · simp only [Memory.read, eq_comm (a := a)]
    · split
      · rename_i _ hk
        subst hk
        by_cases hx : x = a
        · simp only [Memory.read, hx, if_true]
        · simp only [Memory.read, if_neg hx, if_neg (Ne.symm hx)]
      · rename_i _ hk
        by_cases hx : k = x
        · subst hx
          simp only [Memory.read, if_true, if_neg (Ne.symm hk)]
        · simp only [Memory.read, if_neg hx, ih]

/-- A read after a write gives the byte written at its offset and what stood there at any other (R61). -/
theorem Memory.read_set (m : Memory) (a x : Nat) (b : Byte) :
    (m.set a b).read x = if x = a then b else m.read x := by
  unfold Memory.set
  split
  · simp_all [Memory.read_erase, Memory.unlisted]
  · exact m.read_insert a x b

/-- Every byte after a store: byte `x - o` of the value where the store covers it, else what stood there (R85). -/
theorem Memory.read_store (m : Memory) (o : Nat) (v : Word64) (n x : Nat) :
    (m.store o v n).read x = if o ≤ x ∧ x < o + n then byteOf v (x - o) else m.read x := by
  induction n with
  | zero =>
    have h : ¬ (o ≤ x ∧ x < o + 0) := by omega
    rw [if_neg h]; rfl
  | succ n ih =>
    simp only [Memory.store, Memory.read_set, ih]
    by_cases h : x = o + n
    · subst h; simp
    · rw [if_neg h]
      congr 1
      exact propext ⟨fun ⟨p, q⟩ => ⟨p, by omega⟩, fun ⟨p, q⟩ => ⟨p, by omega⟩⟩

/-- Bit `i` of a load is bit `i % 8` of its byte `i / 8` (R12, R53). -/
theorem Memory.getLsbD_load (m : Memory) (o n i : Nat) (hn : n ≤ 8) :
    (m.load o n).getLsbD i = (decide (i < 8 * n) && (m.read (o + i / 8)).getLsbD (i % 8)) := by
  induction n with
  | zero => simp [Memory.load]
  | succ n ih =>
    simp only [Memory.load, BitVec.getLsbD_or, ih (by omega), BitVec.getLsbD_shiftLeft, BitVec.getLsbD_setWidth]
    by_cases h1 : i < 8 * n
    · simp [h1]; omega
    · by_cases h2 : i < 8 * (n + 1)
      · have hd : i / 8 = n := by omega
        have hm : i - 8 * n = i % 8 := by omega
        have h64 : i < 64 := by omega
        have h64' : i % 8 < 64 := by omega
        simp [h1, h2, hd, hm, h64, h64']
      · have h8 : 8 ≤ i - 8 * n := by omega
        simp [h1, h2, BitVec.getLsbD_of_ge _ _ h8]

/-- Byte `i` of a load is the byte at its place in the window; above its width a load is zero (R86). -/
theorem Memory.byteOf_load (m : Memory) (o n i : Nat) (hn : n ≤ 8) :
    byteOf (m.load o n) i = if i < n then m.read (o + i) else 0#8 := by
  apply BitVec.eq_of_getLsbD_eq
  intro j hj
  simp only [byteOf, BitVec.getLsbD_extractLsb', hj, decide_true, Bool.true_and, m.getLsbD_load o n _ hn]
  have hd : (8 * i + j) / 8 = i := by omega
  have hm : (8 * i + j) % 8 = j := by omega
  rw [hd, hm]
  split
  · have : 8 * i + j < 8 * n := by omega
    simp [this]
  · have : ¬ 8 * i + j < 8 * n := by omega
    simp [this]

/-- Loads of windows that agree on the bytes loaded are equal. -/
theorem Memory.load_congr {m m' : Memory} {o n : Nat} (h : ∀ x, o ≤ x → x < o + n → m.read x = m'.read x) :
    m.load o n = m'.load o n := by
  induction n with
  | zero => rfl
  | succ n ih =>
    simp only [Memory.load]
    rw [ih (fun x h1 h2 => h x h1 (by omega)), h (o + n) (by omega) (by omega)]

theorem Memory.read_fillFrom_lt (f : Nat → Byte) (a n x : Nat) (h : x < a) : (Memory.fillFrom f a n).read x = 0#8 := by
  induction n generalizing a with
  | zero => rfl
  | succ n ih =>
    simp only [Memory.fillFrom]
    split
    · exact ih (a + 1) (by omega)
    · simp only [Memory.read]
      rw [if_neg (by omega)]
      exact ih (a + 1) (by omega)

/-- Every byte of a filled window. -/
theorem Memory.read_fillFrom (f : Nat → Byte) (a n x : Nat) :
    (Memory.fillFrom f a n).read x = if a ≤ x ∧ x < a + n then f x else 0#8 := by
  induction n generalizing a with
  | zero =>
    have h : ¬ (a ≤ x ∧ x < a + 0) := by omega
    rw [if_neg h]; rfl
  | succ n ih =>
    simp only [Memory.fillFrom]
    by_cases hx : x = a
    · subst hx
      split
      · rename_i hz
        rw [Memory.read_fillFrom_lt f (x + 1) n x (by omega), if_pos (by omega), hz]
        rfl
      · simp [Memory.read]
    · have hc : (a ≤ x ∧ x < a + (n + 1)) ↔ (a + 1 ≤ x ∧ x < a + 1 + n) := by omega
      split
      · simp only [ih (a + 1), hc]
      · simp only [Memory.read, if_neg (Ne.symm hx), ih (a + 1), hc]

/-- Byte `x` of the window that holds these 4096 bytes (R146). -/
theorem Memory.read_ofBytes (y : WindowBytes) (x : Nat) :
    (Memory.ofBytes y).read x = if h : x < 4096 then y ⟨x, h⟩ else 0#8 := by
  simp only [Memory.ofBytes, Memory.read_fillFrom]
  by_cases h : x < 4096 <;> simp [h]

theorem Memory.wfFrom_mono {len lo lo' : Nat} {m : Memory} (h : lo' ≤ lo) (hm : m.wfFrom len lo = true) :
    m.wfFrom len lo' = true := by
  cases m with
  | nil => rfl
  | cons e m =>
    obtain ⟨k, c⟩ := e
    simp only [Memory.wfFrom, Bool.and_eq_true, decide_eq_true_eq] at hm ⊢
    exact ⟨⟨⟨by omega, hm.1.1.2⟩, hm.1.2⟩, hm.2⟩

theorem Memory.wfFrom_erase {len lo : Nat} {m : Memory} (a : Nat) (hm : m.wfFrom len lo = true) :
    (m.erase a).wfFrom len lo = true := by
  induction m generalizing lo with
  | nil => rfl
  | cons e m ih =>
    obtain ⟨k, c⟩ := e
    simp only [Memory.wfFrom, Bool.and_eq_true, decide_eq_true_eq] at hm
    simp only [Memory.erase]
    split
    · exact Memory.wfFrom_mono (by omega) (ih hm.2)
    · simp only [Memory.wfFrom, Bool.and_eq_true, decide_eq_true_eq]
      exact ⟨hm.1, ih hm.2⟩

theorem Memory.wfFrom_insert {len lo : Nat} {m : Memory} {a : Nat} {b : Byte} (hlo : lo ≤ a) (ha : a < len)
    (hb : b ≠ 0#8) (hm : m.wfFrom len lo = true) : (m.insert a b).wfFrom len lo = true := by
  induction m generalizing lo with
  | nil => simp [Memory.insert, Memory.wfFrom, Memory.unlisted, hlo, ha, hb]
  | cons e m ih =>
    obtain ⟨k, c⟩ := e
    simp only [Memory.wfFrom, Bool.and_eq_true, decide_eq_true_eq] at hm
    simp only [Memory.insert]
    split
    · simp only [Memory.wfFrom, Bool.and_eq_true, decide_eq_true_eq]
      exact ⟨⟨⟨hlo, ha⟩, by simpa [Memory.unlisted] using hb⟩, ⟨⟨by omega, hm.1.1.2⟩, hm.1.2⟩, hm.2⟩
    · split
      · rename_i _ hk
        subst hk
        simp only [Memory.wfFrom, Bool.and_eq_true, decide_eq_true_eq]
        exact ⟨⟨⟨hlo, ha⟩, by simpa [Memory.unlisted] using hb⟩, hm.2⟩
      · simp only [Memory.wfFrom, Bool.and_eq_true, decide_eq_true_eq]
        exact ⟨hm.1, ih (by omega) hm.2⟩

/-- A write inside the window keeps the canonical form. -/
theorem Memory.wf_set {len : Nat} {m : Memory} {a : Nat} (b : Byte) (ha : a < len) (hm : m.wf len = true) :
    (m.set a b).wf len = true := by
  unfold Memory.set
  split
  · exact Memory.wfFrom_erase a hm
  · exact Memory.wfFrom_insert (by omega) ha ‹_› hm

/-- A store inside the window keeps the canonical form. -/
theorem Memory.wf_store {len : Nat} {m : Memory} {o : Nat} (v : Word64) {n : Nat} (ho : o + n ≤ len)
    (hm : m.wf len = true) : (m.store o v n).wf len = true := by
  induction n with
  | zero => exact hm
  | succ n ih => exact Memory.wf_set _ (by omega) (ih (by omega))

theorem Memory.wfFrom_fillFrom (len : Nat) (f : Nat → Byte) (a n : Nat) (h : a + n ≤ len) :
    (Memory.fillFrom f a n).wfFrom len a = true := by
  induction n generalizing a with
  | zero => rfl
  | succ n ih =>
    simp only [Memory.fillFrom]
    split
    · exact Memory.wfFrom_mono (by omega) (ih (a + 1) (by omega))
    · rename_i hz
      simp only [Memory.wfFrom, Bool.and_eq_true, decide_eq_true_eq]
      exact ⟨⟨⟨by omega, by omega⟩, by simpa [bne] using hz⟩, ih (a + 1) (by omega)⟩

/-- A filled data window is in canonical form. -/
theorem Memory.wf_ofBytes (y : WindowBytes) : (Memory.ofBytes y).wf Config.outLen = true :=
  Memory.wfFrom_fillFrom _ _ 0 _ (by simp)

/-- The zeroed window is in canonical form. -/
theorem Memory.wf_zeros (len : Nat) : Memory.zeros.wf len = true := rfl

/-- A window in canonical form lists nothing at or above its length. -/
theorem Memory.read_of_len_le {len lo : Nat} {m : Memory} (hm : m.wfFrom len lo = true) {x : Nat} (hx : len ≤ x) :
    m.read x = 0#8 := by
  induction m generalizing lo with
  | nil => rfl
  | cons e m ih =>
    obtain ⟨k, c⟩ := e
    simp only [Memory.wfFrom, Bool.and_eq_true, decide_eq_true_eq] at hm
    simp only [Memory.read]
    rw [if_neg (by omega)]
    exact ih hm.2

end Sys2Proof.Machine
end

