-- ==== Sys2Proof/Laws/State.lean ====
section
/-! SUPPORT. One lemma per field per update of the state and of the block, so that no proof unfolds a record update; and
what taking a request leaves. -/

namespace Sys2Proof.Machine

@[simp] theorem State.withBlock_params (s : State) (b : Block) : (s.withBlock b).params = s.params := rfl
@[simp] theorem State.withBlock_block (s : State) (b : Block) : (s.withBlock b).block = b := rfl
@[simp] theorem State.withBlock_requests (s : State) (b : Block) : (s.withBlock b).requests = s.requests := rfl
@[simp] theorem State.withBlock_history (s : State) (b : Block) : (s.withBlock b).history = s.history := rfl

@[simp] theorem State.record_params (s : State) (e : Event) : (s.record e).params = s.params := rfl
@[simp] theorem State.record_block (s : State) (e : Event) : (s.record e).block = s.block := rfl
@[simp] theorem State.record_requests (s : State) (e : Event) : (s.record e).requests = s.requests := rfl
@[simp] theorem State.record_history (s : State) (e : Event) : (s.record e).history = s.history ++ [e] := rfl

@[simp] theorem State.deliver_params (s : State) (r : Request) : (s.deliver r).params = s.params := rfl
@[simp] theorem State.deliver_block (s : State) (r : Request) : (s.deliver r).block = s.block := rfl
@[simp] theorem State.deliver_requests (s : State) (r : Request) : (s.deliver r).requests = s.requests ++ [r] := rfl
@[simp] theorem State.deliver_history (s : State) (r : Request) : (s.deliver r).history = s.history := rfl

@[simp] theorem State.placeFirst_params (s : State) (r : Request) : (s.placeFirst r).params = s.params := rfl
@[simp] theorem State.placeFirst_block (s : State) (r : Request) : (s.placeFirst r).block = s.block := rfl
@[simp] theorem State.placeFirst_requests (s : State) (r : Request) : (s.placeFirst r).requests = r :: s.requests := rfl
@[simp] theorem State.placeFirst_history (s : State) (r : Request) : (s.placeFirst r).history = s.history := rfl

@[simp] theorem Block.withRf_rf (b : Block) (m : Memory) : (b.withRf m).rf = m := rfl
@[simp] theorem Block.withRf_input (b : Block) (m : Memory) : (b.withRf m).input = b.input := rfl
@[simp] theorem Block.withRf_output (b : Block) (m : Memory) : (b.withRf m).output = b.output := rfl
@[simp] theorem Block.withInput_rf (b : Block) (m : Memory) : (b.withInput m).rf = b.rf := rfl
@[simp] theorem Block.withInput_input (b : Block) (m : Memory) : (b.withInput m).input = m := rfl
@[simp] theorem Block.withInput_output (b : Block) (m : Memory) : (b.withInput m).output = b.output := rfl
@[simp] theorem Block.withOutput_rf (b : Block) (m : Memory) : (b.withOutput m).rf = b.rf := rfl
@[simp] theorem Block.withOutput_input (b : Block) (m : Memory) : (b.withOutput m).input = b.input := rfl
@[simp] theorem Block.withOutput_output (b : Block) (m : Memory) : (b.withOutput m).output = m := rfl

/-- With no request there is nothing to take. -/
theorem State.fetch_nil {s : State} (h : s.requests = []) : s.fetch = none := by
  simp [State.fetch, h]

/-- The oldest request is taken, and nothing else of the state changes (R61). -/
theorem State.fetch_cons {s : State} {r : Request} {rest : List Request} (h : s.requests = r :: rest) :
    s.fetch = some (r, { s with requests := rest }) := by
  simp [State.fetch, h]

/-- A request placed first is the one that is taken next, and taking it gives back the state as it was. -/
theorem State.fetch_placeFirst (s : State) (r : Request) : (s.placeFirst r).fetch = some (r, s) := rfl

end Sys2Proof.Machine
end

