-- ==== Sys2Proof/Laws/Registers.lean ====
section
/-! SUPPORT. The registers of BAR0 in terms of the bytes of the image, and what a bit's assignment does to each byte. -/

namespace Sys2Proof.Machine

/-- Bit `i` of a 32-bit register is bit `i % 8` of its byte `i / 8` (R13, R53). -/
theorem Block.getLsbD_read32 (b : Block) (o i : Nat) :
    (b.read32 o).getLsbD i = (decide (i < 32) && (b.rf.read (o + i / 8)).getLsbD (i % 8)) := by
  simp only [Block.read32, BitVec.getLsbD_setWidth, Memory.getLsbD_load b.rf o 4 i (by omega)]
  by_cases h : i < 32 <;> simp [h]

/-- The command bits are the low bits of byte 0x00 (R22). -/
theorem Block.commandBits_eq (b : Block) : b.commandBits = (b.rf.read 0).extractLsb' 0 3 := by
  apply BitVec.eq_of_getLsbD_eq
  intro i hi
  have h0 : i / 8 = 0 := by omega
  have h1 : i % 8 = i := by omega
  have h2 : i < 32 := by omega
  simp only [Block.commandBits, Block.control, BitVec.getLsbD_extractLsb', Block.getLsbD_read32, controlOffset,
    Nat.zero_add, h0, h1, h2, decide_true, Bool.true_and]

/-- Registers of blocks that agree on the four bytes are equal. -/
theorem Block.read32_congr {b c : Block} {o : Nat} (h : ∀ x, o ≤ x → x < o + 4 → b.rf.read x = c.rf.read x) :
    b.read32 o = c.read32 o := by
  simp only [Block.read32, Memory.load_congr h]

theorem Block.start_eq (b : Block) : b.start = (b.rf.read 0).getLsbD 0 :=
  b.getLsbD_read32 _ _

theorem Block.stop_eq (b : Block) : b.stop = (b.rf.read 0).getLsbD 1 :=
  b.getLsbD_read32 _ _

theorem Block.resetBit_eq (b : Block) : b.resetBit = (b.rf.read 0).getLsbD 2 :=
  b.getLsbD_read32 _ _

theorem Block.busy_eq (b : Block) : b.busy = (b.rf.read 12).getLsbD 0 :=
  b.getLsbD_read32 _ _

theorem Block.done_eq (b : Block) : b.done = (b.rf.read 12).getLsbD 1 :=
  b.getLsbD_read32 _ _

/-- A bit of a byte after `setBit`: the bit assigned, or the bit that stood there (R13). -/
theorem getLsbD_setBit (c : Byte) (k : Nat) (v : Bool) (j : Nat) (hj : j < 8) :
    (setBit c k v).getLsbD j = if j = k then v else c.getLsbD j := by
  cases v <;> simp only [setBit, if_true, Bool.false_eq_true, if_false] <;>
    simp only [BitVec.getLsbD_or, BitVec.getLsbD_and, BitVec.getLsbD_not, BitVec.getLsbD_shiftLeft, hj,
      BitVec.getLsbD_one, decide_true, Bool.true_and] <;>
    split <;> rename_i h
  · subst h; simp
  · have : (!decide (j < k) && decide (j - k = 0)) = false := by
      simp only [Bool.and_eq_false_iff, Bool.not_eq_false', decide_eq_true_eq, decide_eq_false_iff_not]; omega
    simp [this]
  · subst h; simp
  · have : (!decide (j < k) && decide (j - k = 0)) = false := by
      simp only [Bool.and_eq_false_iff, Bool.not_eq_false', decide_eq_true_eq, decide_eq_false_iff_not]; omega
    simp [this]

/-- The same for a bit taken by index, the form that `simp` brings `getLsbD` to. -/
@[simp] theorem getElem_setBit (b : Byte) (k : Nat) (v : Bool) (j : Nat) (hj : j < 8) :
    (setBit b k v)[j] = if j = k then v else b[j] :=
  getLsbD_setBit b k v j hj

/-- Every byte of the register file after a bit's assignment (R13). -/
theorem Block.read_assignBit (b : Block) (a k : Nat) (v : Bool) (x : Nat) :
    (b.assignBit a k v).rf.read x = if x = a then setBit (b.rf.read a) k v else b.rf.read x := by
  simp [Block.assignBit, Memory.read_set]

/-- Every byte of the register file after `busy` and `done` are written (R31). -/
theorem Block.read_setBusyDone (b : Block) (busy done : Bool) (x : Nat) :
    (b.setBusyDone busy done).rf.read x =
      if x = statusOffset then setBit (setBit (b.rf.read statusOffset) 0 busy) 1 done else b.rf.read x := by
  simp [Block.setBusyDone, Memory.read_set]

@[simp] theorem Block.assignBit_input (b : Block) (a k : Nat) (v : Bool) : (b.assignBit a k v).input = b.input := rfl
@[simp] theorem Block.assignBit_output (b : Block) (a k : Nat) (v : Bool) : (b.assignBit a k v).output = b.output := rfl
@[simp] theorem Block.setBusyDone_input (b : Block) (x y : Bool) : (b.setBusyDone x y).input = b.input := rfl
@[simp] theorem Block.setBusyDone_output (b : Block) (x y : Bool) : (b.setBusyDone x y).output = b.output := rfl

end Sys2Proof.Machine
end

