-- ==== Sys2Proof/Laws/Engine.lean ====
section
/-! SUPPORT. What each transition of the Command Engine does to every byte (R143, R146, R149), and which transition the hook
runs (R142). -/

namespace Sys2Proof.Machine

@[simp] theorem Block.resetTransition_eq (b : Block) : b.resetTransition = Block.zero := rfl

theorem Block.read_startEnter (b : Block) (x : Nat) :
    b.startEnter.rf.read x =
      if x = 0 then setBit (b.rf.read 0) 1 false
      else if x = 12 then setBit (setBit (b.rf.read 12) 0 true) 1 false
      else b.rf.read x := by
  simp only [Block.startEnter, Block.setStop, Block.read_assignBit, Block.read_setBusyDone, controlOffset, statusOffset]
  by_cases h : x = 0
  · simp [h]
  · simp only [if_neg h]
    rfl

/-- Every byte of the register file after START (R146). -/
theorem Block.read_startTransition (p : Params) (b : Block) (x : Nat) :
    (b.startTransition p).rf.read x =
      if x = 0 then setBit (setBit (b.rf.read 0) 1 false) 0 false
      else if x = 12 then setBit (setBit (setBit (setBit (b.rf.read 12) 0 true) 1 false) 0 false) 1 true
      else b.rf.read x := by
  simp only [Block.startTransition, Block.startFinish, Block.setStart, Block.read_assignBit, Block.read_setBusyDone,
    Block.startCompute, Block.withInput_rf, Block.withOutput_rf, Block.read_startEnter, controlOffset, statusOffset]
  by_cases h : x = 0 <;> by_cases h' : x = 12 <;> simp [h, h']

/-- `input` is zero after START (R146). -/
@[simp] theorem Block.startTransition_input (p : Params) (b : Block) : (b.startTransition p).input = Memory.zeros := rfl

/-- `output` holds COMPUTE's result after START, of `input` as START found it (R146). -/
@[simp] theorem Block.startTransition_output (p : Params) (b : Block) :
    (b.startTransition p).output = Memory.ofBytes (runCompute p b.input.bytes) := by
  have h : b.startEnter.input = b.input := rfl
  simp only [Block.startTransition, Block.startFinish, Block.setStart, Block.assignBit_output,
    Block.setBusyDone_output, Block.startCompute, Block.withInput_output, Block.withOutput_output, h]

/-- Every byte of the register file after STOP (R149). -/
theorem Block.read_stopTransition (b : Block) (x : Nat) :
    b.stopTransition.rf.read x =
      if x = 0 then setBit (setBit (b.rf.read 0) 0 false) 1 false
      else if x = 12 then setBit (setBit (b.rf.read 12) 0 false) 1 false
      else b.rf.read x := by
  simp only [Block.stopTransition, Block.stopStub, Block.setStart, Block.setStop, Block.read_assignBit,
    Block.read_setBusyDone, controlOffset, statusOffset]
  by_cases h : x = 0
  · simp [h]
  · simp only [if_neg h]
    rfl

@[simp] theorem Block.stopTransition_input (b : Block) : b.stopTransition.input = b.input := rfl
@[simp] theorem Block.stopTransition_output (b : Block) : b.stopTransition.output = b.output := rfl

/-- Every register file that the engine leaves is in canonical form if the one it found was. -/
theorem Block.wf_rf_runCommand (p : Params) (b : Block) (c : Command) (h : b.rf.wf 64 = true) :
    (b.runCommand p c).rf.wf 64 = true := by
  cases c with
  | reset => rfl
  | start => exact Memory.wf_set _ (by decide) (Memory.wf_set _ (by decide) (Memory.wf_set _ (by decide) (Memory.wf_set _ (by decide) h)))
  | stop => exact Memory.wf_set _ (by decide) (Memory.wf_set _ (by decide) (Memory.wf_set _ (by decide) h))
  | none => exact h

/-- The one command that the command bits select, case by case (R142). -/
theorem decodeCommand_cases (c : BitVec 3) :
    (c.getLsbD 2 = true ∧ decodeCommand c = .reset) ∨
    (c.getLsbD 2 = false ∧ c.getLsbD 0 = true ∧ decodeCommand c = .start) ∨
    (c.getLsbD 2 = false ∧ c.getLsbD 0 = false ∧ c.getLsbD 1 = true ∧ decodeCommand c = .stop) ∨
    (c = 0#3 ∧ decodeCommand c = .none) := by
  revert c; decide

end Sys2Proof.Machine
end

