-- ==== Sys2Proof/Laws/Exec.lean ====
section
/-! SUPPORT. What each shared operation of the transactions can answer, and one inversion lemma for `exec` and one for
`step`: everything that a next state can be. -/

namespace Sys2Proof.Machine

/-- What passes the boundary passed its width check. -/
theorem atBoundary_next {bar : Bar} {size : Size} {s t : State} {run : Host.Outcome State Fault Refusal}
    (h : atBoundary bar size s run = .next t) : bar.admits s.params.bar0Widths size = true ∧ run = .next t := by
  unfold atBoundary at h
  split at h
  · exact ⟨‹_›, h⟩
  · cases h

/-- An admitted width passes the boundary. -/
theorem atBoundary_of_admits {bar : Bar} {size : Size} {s : State} {run : Host.Outcome State Fault Refusal}
    (h : bar.admits s.params.bar0Widths size = true) : atBoundary bar size s run = run := by
  simp [atBoundary, h]

/-- A width that is not admitted is refused (R55). -/
theorem atBoundary_of_not_admits {bar : Bar} {size : Size} {s : State} {run : Host.Outcome State Fault Refusal}
    (h : bar.admits s.params.bar0Widths size = false) :
    atBoundary bar size s run = .refused (.boundary .widthNotAdmitted) := by
  simp [atBoundary, h]

/-- The bounds check in numbers (R56, R57). -/
theorem inRange_iff (offset : Word64) (size : Size) (len : Nat) :
    inRange offset size len = true ↔ offset.toNat + size.bytes ≤ len := by
  simp [inRange]

/-- The `status` overlap check in numbers (R104). -/
theorem overlapsStatus_iff (offset : Word64) (size : Size) :
    overlapsStatus offset size = true ↔ offset.toNat < 0x10 ∧ 0x0C < offset.toNat + size.bytes := by
  simp [overlapsStatus]

/-- A BAR0 write ends in one of three ways (R104, R105). -/
theorem bar0WriteResult_cases (size : Size) (offset wdata : Word64) (s : State) :
    (inRange offset size Config.rfLen = true ∧ overlapsStatus offset size = false ∧
      bar0WriteResult size offset wdata s =
        (s.withBlock ((s.block.mergeRf size offset wdata).hook s.params)).record (writeEvent .okWrite)) ∨
    (inRange offset size Config.rfLen = true ∧ overlapsStatus offset size = true ∧
      bar0WriteResult size offset wdata s = s.record (writeEvent .readOnlyDrop)) ∨
    (inRange offset size Config.rfLen = false ∧
      bar0WriteResult size offset wdata s = s.record (writeEvent .outOfRange)) := by
  unfold bar0WriteResult
  cases h : inRange offset size Config.rfLen <;> cases h' : overlapsStatus offset size <;> simp

/-- A BAR1 write ends in one of two ways (R123). -/
theorem bar1WriteResult_cases (size : Size) (offset wdata : Word64) (s : State) :
    (inRange offset size Config.inLen = true ∧
      bar1WriteResult size offset wdata s =
        (s.withBlock (s.block.withInput (s.block.input.store offset.toNat wdata size.bytes))).record
          (writeEvent .okWrite)) ∨
    (inRange offset size Config.inLen = false ∧
      bar1WriteResult size offset wdata s = s.record (writeEvent .outOfRange)) := by
  unfold bar1WriteResult
  cases h : inRange offset size Config.inLen <;> simp

/-- Everything that an instruction can leave: an event alone (a read, a dropped write, a BAR2 store), an accepted BAR0
write with its hook, an accepted BAR1 write, or a command's transition. -/
theorem exec_cases {i : Instr} {s t : State} (h : exec i s = .next t) :
    (∃ e, t = s.record e) ∨
    (∃ size offset wdata, i = .bar0Write size offset wdata ∧ inRange offset size Config.rfLen = true ∧
      overlapsStatus offset size = false ∧
      t = (s.withBlock ((s.block.mergeRf size offset wdata).hook s.params)).record (writeEvent .okWrite)) ∨
    (∃ size offset wdata, i = .bar1Write size offset wdata ∧ inRange offset size Config.inLen = true ∧
      t = (s.withBlock (s.block.withInput (s.block.input.store offset.toNat wdata size.bytes))).record
        (writeEvent .okWrite)) ∨
    (∃ c : Command, i = c.instr ∧ t = s.withBlock (s.block.runCommand s.params c)) := by
  cases i with
  | bar0Read size offset =>
    cases (atBoundary_next h).2
    exact .inl ⟨_, rfl⟩
  | bar0Write size offset wdata =>
    cases (atBoundary_next h).2
    obtain ⟨h1, h2, h3⟩ | ⟨_, _, h3⟩ | ⟨_, h3⟩ := bar0WriteResult_cases size offset wdata s
    · exact .inr (.inl ⟨size, offset, wdata, rfl, h1, h2, h3⟩)
    · exact .inl ⟨_, h3⟩
    · exact .inl ⟨_, h3⟩
  | bar1Read size offset =>
    cases (atBoundary_next h).2
    exact .inl ⟨_, rfl⟩
  | bar1Write size offset wdata =>
    cases (atBoundary_next h).2
    obtain ⟨h1, h2⟩ | ⟨_, h2⟩ := bar1WriteResult_cases size offset wdata s
    · exact .inr (.inr (.inl ⟨size, offset, wdata, rfl, h1, h2⟩))
    · exact .inl ⟨_, h2⟩
  | bar2Read size offset =>
    cases (atBoundary_next h).2
    exact .inl ⟨_, rfl⟩
  | bar2Write size offset wdata =>
    cases (atBoundary_next h).2
    exact .inl ⟨_, rfl⟩
  | cmdReset => cases h; exact .inr (.inr (.inr ⟨.reset, rfl, rfl⟩))
  | cmdStart => cases h; exact .inr (.inr (.inr ⟨.start, rfl, rfl⟩))
  | cmdStop => cases h; exact .inr (.inr (.inr ⟨.stop, rfl, rfl⟩))
  | cmdNone => cases h; exact .inr (.inr (.inr ⟨.none, rfl, rfl⟩))

/-- Everything that a step can leave: nothing changed with no request, or the decoded instruction's effect on the state
without that request. -/
theorem step_cases {s t : State} (h : step s = .next t) :
    (s.requests = [] ∧ t = s) ∨
    (∃ r rest i, s.requests = r :: rest ∧ decode s.params.bar0Widths (.transaction r) = .ok i ∧
      exec i { s with requests := rest } = .next t) := by
  cases hr : s.requests with
  | nil =>
    simp only [step, State.fetch_nil hr, Host.Outcome.next.injEq] at h
    exact .inl ⟨rfl, h.symm⟩
  | cons r rest =>
    simp only [step, State.fetch_cons hr] at h
    split at h
    · cases h
    · exact .inr ⟨r, rest, _, rfl, ‹_›, h⟩

end Sys2Proof.Machine
end

