-- ==== Sys2Proof/Laws/Operands.lean ====
section
/-! SUPPORT. The bytes of a 64-bit value, of the sentinel and of a merged register file, and what a read of a window answers
in range and out of range. -/

namespace Sys2Proof.Machine

/-- Two 64-bit values with the same eight bytes are equal. -/
theorem byteOf_ext {v w : Word64} (h : ∀ i < 8, byteOf v i = byteOf w i) : v = w := by
  apply BitVec.eq_of_getLsbD_eq
  intro j hj
  have hb := congrArg (fun b => b.getLsbD (j % 8)) (h (j / 8) (by omega))
  have h1 : j % 8 < 8 := by omega
  have h2 : 8 * (j / 8) + j % 8 = j := by omega
  simpa only [byteOf, BitVec.getLsbD_extractLsb', h1, h2, decide_true, Bool.true_and] using hb

/-- The sentinel is 0xFF in each byte of the access width and zero above it (R56, R86). -/
theorem byteOf_ones (size : Size) (i : Nat) (hi : i < 8) :
    byteOf (ones size.bytes) i = if i < size.bytes then 0xFF#8 else 0x00#8 := by
  have : i = 0 ∨ i = 1 ∨ i = 2 ∨ i = 3 ∨ i = 4 ∨ i = 5 ∨ i = 6 ∨ i = 7 := by omega
  cases size <;> rcases this with rfl | rfl | rfl | rfl | rfl | rfl | rfl | rfl <;> decide

/-- A load whose bits are those of a value is that value (R53). -/
theorem Memory.load_eq {m : Memory} {o n : Nat} {v : Word64} (hn : n ≤ 8)
    (h : ∀ i < 64, v.getLsbD i = (decide (i < 8 * n) && (m.read (o + i / 8)).getLsbD (i % 8))) : m.load o n = v := by
  apply BitVec.eq_of_getLsbD_eq
  intro i hi
  rw [m.getLsbD_load o n i hn, h i hi]

/-- A 4-byte load of the register file is the register's value, zero-extended (R42, R86). -/
theorem Block.load_rf_four (b : Block) (o : Nat) : b.rf.load o 4 = (b.read32 o).setWidth 64 := by
  refine Memory.load_eq (by decide) fun i hi => ?_
  rw [BitVec.getLsbD_setWidth, Block.getLsbD_read32]
  simp [hi]

/-- A read in range answers the bytes in little-endian order (R86). -/
theorem readEvent_of_inRange {m : Memory} {len : Nat} {offset : Word64} {size : Size}
    (h : offset.toNat + size.bytes ≤ len) :
    readEvent m len offset size = { outcome := .okRead, response := .data (m.load offset.toNat size.bytes) } := by
  simp [readEvent, inRange, h]

/-- A read that is not in range answers the sentinel (R56). -/
theorem readEvent_of_outOfRange {m : Memory} {len : Nat} {offset : Word64} {size : Size}
    (h : len < offset.toNat + size.bytes) :
    readEvent m len offset size = { outcome := .outOfRange, response := .data (ones size.bytes) } := by
  have : ¬ offset.toNat + size.bytes ≤ len := by omega
  simp [readEvent, inRange, this]

/-- Every byte of the register file after a BAR0 write's merge (R103, R85). -/
theorem Block.read_mergeRf (b : Block) (size : Size) (offset wdata : Word64) (x : Nat) :
    (b.mergeRf size offset wdata).rf.read x =
      if offset.toNat ≤ x ∧ x < offset.toNat + size.bytes then byteOf wdata (x - offset.toNat) else b.rf.read x :=
  Memory.read_store _ _ _ _ x

@[simp] theorem Block.mergeRf_input (b : Block) (size : Size) (offset wdata : Word64) :
    (b.mergeRf size offset wdata).input = b.input := rfl

@[simp] theorem Block.mergeRf_output (b : Block) (size : Size) (offset wdata : Word64) :
    (b.mergeRf size offset wdata).output = b.output := rfl

/-- A merge in range keeps the register file in canonical form. -/
theorem Block.wf_mergeRf {b : Block} {size : Size} {offset : Word64} (wdata : Word64)
    (hr : offset.toNat + size.bytes ≤ Config.rfLen) (h : b.rf.wf Config.rfLen = true) :
    (b.mergeRf size offset wdata).rf.wf Config.rfLen = true :=
  Memory.wf_store _ hr h

end Sys2Proof.Machine
end

