-- ==== Sys2Proof/Laws/PerInstr.lean ====
section
/-! SUPPORT. Statements made for all instructions, one lemma per constructor. Family `TableRow`: the bits of an encoded
instruction, under its row's mask, are its row's match value, both copied from spec/opcode_table.json (R84, R87). -/

namespace Sys2Proof.Laws

/-- The `mask` and `match` columns of an instruction's row. -/
def tableMaskMatch : Instr → Nat × Nat
  | .bar0Read _ _ => (0xE7, 0x00)
  | .bar0Write _ _ _ => (0xE7, 0x04)
  | .bar1Read _ _ => (0xE7, 0x01)
  | .bar1Write _ _ _ => (0xE7, 0x05)
  | .bar2Read _ _ => (0xE7, 0x02)
  | .bar2Write _ _ _ => (0xE7, 0x06)
  | .cmdReset => (0x4, 0x4)
  | .cmdStart => (0x5, 0x1)
  | .cmdStop => (0x7, 0x2)
  | .cmdNone => (0x7, 0x0)

/-- The bits that a row's mask and match speak of: the descriptor, or the command bits. -/
def tableBits : Code → Nat
  | .transaction r => r.descriptor.toNat
  | .command c => c.toNat

/-- The encoded instruction lies in its row. -/
def TableRow.Statement (i : Instr) : Prop :=
  tableBits (encode i) &&& (tableMaskMatch i).1 = (tableMaskMatch i).2

theorem TableRow.bar0Read (size : Size) (offset : Word64) : TableRow.Statement (.bar0Read size offset) := by
  show (descriptorOf .bar0 .read size).toNat &&& 0xE7 = 0x00
  cases size <;> decide

theorem TableRow.bar0Write (size : Size) (offset wdata : Word64) :
    TableRow.Statement (.bar0Write size offset wdata) := by
  show (descriptorOf .bar0 .write size).toNat &&& 0xE7 = 0x04
  cases size <;> decide

theorem TableRow.bar1Read (size : Size) (offset : Word64) : TableRow.Statement (.bar1Read size offset) := by
  show (descriptorOf .bar1 .read size).toNat &&& 0xE7 = 0x01
  cases size <;> decide

theorem TableRow.bar1Write (size : Size) (offset wdata : Word64) :
    TableRow.Statement (.bar1Write size offset wdata) := by
  show (descriptorOf .bar1 .write size).toNat &&& 0xE7 = 0x05
  cases size <;> decide

theorem TableRow.bar2Read (size : Size) (offset : Word64) : TableRow.Statement (.bar2Read size offset) := by
  show (descriptorOf .bar2 .read size).toNat &&& 0xE7 = 0x02
  cases size <;> decide

theorem TableRow.bar2Write (size : Size) (offset wdata : Word64) :
    TableRow.Statement (.bar2Write size offset wdata) := by
  show (descriptorOf .bar2 .write size).toNat &&& 0xE7 = 0x06
  cases size <;> decide

theorem TableRow.cmdReset : TableRow.Statement .cmdReset := rfl

theorem TableRow.cmdStart : TableRow.Statement .cmdStart := rfl

theorem TableRow.cmdStop : TableRow.Statement .cmdStop := rfl

theorem TableRow.cmdNone : TableRow.Statement .cmdNone := rfl

end Sys2Proof.Laws
end

