-- ==== Sys2Proof/Tests/Slice0.lean ====
section
/-! SUPPORT. The model's own tests: ill-formed terms, words written out from the spec's encodings, one step of each
instruction against spec/95_test_vectors.md, and a witness for the hypotheses of each statement. -/

namespace Sys2Proof.Tests

open Sys2Proof.Machine Sys2Proof.Claims

/-- The creation state `S0` of the vectors with this block state. -/
def stateWith (b : Block) : State := State.reset.withBlock b

/-- The state an instruction leaves, or the state itself where it has none. -/
def after (i : Instr) (s : State) : State :=
  match exec i s with
  | .next t => t
  | .fault _ => s
  | .refused _ => s

/-- The last read response of a state. -/
def lastRead (s : State) : Option Word64 := s.readResponses.getLast?

/-- A block whose register file holds these cells. -/
def rfBlock (m : Memory) : Block := Block.zero.withRf m

/-- `S0` after START with the default COMPUTE, as far as the registers go: Done, the first bytes of `output` filled. -/
def doneState : State := stateWith { rf := [(0x0C, 2)], input := [], output := [(0, 1), (1, 1), (2, 1), (3, 1)] }

/-! ### Ill-formed terms -/

theorem test_illFormed_bar0Read_8 : Instr.wellFormed .upTo4 (.bar0Read .b8 0) = false := by decide
theorem test_illFormed_bar0Write_8 : Instr.wellFormed .upTo4 (.bar0Write .b8 0 0) = false := by decide
theorem test_illFormed_bar0Read_1 : Instr.wellFormed .only4 (.bar0Read .b1 0) = false := by decide
theorem test_illFormed_bar0Write_2 : Instr.wellFormed .only4 (.bar0Write .b2 0 0) = false := by decide
theorem test_wellFormed_bar1Write_8 : Instr.wellFormed .only4 (.bar1Write .b8 0 0) = true := by decide

/-! ### Decoding: the descriptors of R84, and VR-1 to VR-6 -/

theorem test_decode_bar0Read : decode .upTo4 (.transaction ⟨0b00001000#8, 0x3#64, 0#64⟩) = .ok (.bar0Read .b2 0x3#64) := by decide
theorem test_decode_bar0Write : decode .only4 (.transaction ⟨0b00010100#8, 0x0#64, 0x1#64⟩) = .ok (.bar0Write .b4 0x0#64 0x1#64) := by decide
theorem test_decode_bar1Read : decode .upTo4 (.transaction ⟨0b00011001#8, 0x0#64, 0#64⟩) = .ok (.bar1Read .b8 0x0#64) := by decide
theorem test_decode_bar1Write : decode .upTo4 (.transaction ⟨0b00000101#8, 0x7#64, 0xAB#64⟩) = .ok (.bar1Write .b1 0x7#64 0xAB#64) := by decide
theorem test_decode_bar2Read : decode .upTo4 (.transaction ⟨0b00010010#8, 0x4#64, 0#64⟩) = .ok (.bar2Read .b4 0x4#64) := by decide
theorem test_decode_bar2Write : decode .upTo4 (.transaction ⟨0b00011110#8, 0x0#64, 0x9#64⟩) = .ok (.bar2Write .b8 0x0#64 0x9#64) := by decide
theorem test_decode_cmdReset : decode .upTo4 (.command 0b100#3) = .ok .cmdReset := by decide
theorem test_decode_cmdStart : decode .upTo4 (.command 0b001#3) = .ok .cmdStart := by decide
theorem test_decode_cmdStop : decode .upTo4 (.command 0b010#3) = .ok .cmdStop := by decide
theorem test_decode_cmdNone : decode .upTo4 (.command 0b000#3) = .ok .cmdNone := by decide
theorem test_refuse_VR1 : decode .upTo4 (.transaction ⟨0x18#8, 0, 0⟩) = .refuse .widthNotAdmitted := by decide
theorem test_refuse_VR2 : decode .upTo4 (.transaction ⟨0x03#8, 0, 0⟩) = .refuse .noWindow := by decide
theorem test_refuse_VR3 : decode .upTo4 (.transaction ⟨0x30#8, 0, 0⟩) = .refuse .reservedBits := by decide
theorem test_refuse_VR4 : decode .only4 (.transaction ⟨0x04#8, 0, 0⟩) = .refuse .widthNotAdmitted := by decide
theorem test_refuse_VR5 : decode .upTo4 (.transaction ⟨0x1F#8, 0, 0⟩) = .refuse .noWindow := by decide
theorem test_accept_VR6 : decodeTableWord 8 0x1E = some (.bar2Write .b8 0 0) := by decide
theorem test_tableWord_command : decodeTableWord 3 0x5 = some .cmdReset := by decide

/-! ### One step of each instruction -/

/-- V0-24. -/
theorem test_bar0Read_spans_fields :
    lastRead (after (.bar0Read .b4 0x0A) (stateWith (rfBlock [(0x08, 0x01), (0x0B, 0x80)]))) = some 0x00008000#64 := by decide

/-- V0-4. -/
theorem test_bar0Read_out_of_range : lastRead (after (.bar0Read .b4 0x3D) State.reset) = some 0xFFFFFFFF#64 := by decide

/-- V0-22. -/
theorem test_bar0Write_spans_fields :
    (after (.bar0Write .b4 0x02 0xCAFEBABE) State.reset).block.control = 0xBABE0000#32 ∧
    (after (.bar0Write .b4 0x02 0xCAFEBABE) State.reset).block.controlW1s = 0x0000CAFE#32 := by decide

/-- V0-15 and V0-13: a write that overlaps `status` is dropped whole. -/
theorem test_bar0Write_overlap :
    (after (.bar0Write .b4 0x0A 0x11223344) (stateWith (rfBlock [(8, 0xDD), (9, 0xCC), (10, 0xBB), (11, 0xAA)]))).block.controlW1c
      = 0xAABBCCDD#32 ∧
    (after (.bar0Write .b2 0x0B 0x1234) State.reset).block = Block.zero := by decide

/-- V1-1. -/
theorem test_bar1Read_bytes :
    lastRead (after (.bar1Read .b2 0x1) (stateWith (Block.zero.withInput [(0, 0xEF), (1, 0xBE), (2, 0xAD), (3, 0xDE)])))
      = some 0xADBE#64 := by decide

/-- V1-3 and V0-7: one byte past the end, and an offset near 2^64. -/
theorem test_bar1Read_out_of_range :
    lastRead (after (.bar1Read .b8 0xFF9) State.reset) = some 0xFFFFFFFFFFFFFFFF#64 ∧
    lastRead (after (.bar1Read .b1 0xFFFFFFFFFFFFFFFF) State.reset) = some 0xFF#64 := by decide

/-- The example of R123. -/
theorem test_bar1Write_bytes :
    (after (.bar1Write .b2 0x7 0xABCD) State.reset).block.input = [(7, 0xCD), (8, 0xAB)] := by decide

/-- V1-4. -/
theorem test_bar1Write_out_of_range :
    (after (.bar1Write .b8 0xFFC 0x1111111111111111) State.reset).block.input = [] := by decide

/-- V2-2, the four low bytes. -/
theorem test_bar2Read_output : lastRead (after (.bar2Read .b4 0x0) doneState) = some 0x01010101#64 := by decide

/-- V2-4. -/
theorem test_bar2Read_out_of_range : lastRead (after (.bar2Read .b8 0xFFA) State.reset) = some 0xFFFFFFFFFFFFFFFF#64 := by decide

/-- V2-3. -/
theorem test_bar2Write_no_effect : (after (.bar2Write .b4 0x0 0x12345678) doneState).block = doneState.block := by decide

/-- R128 under BAR2_WRITE_HOST = host_fault: the host reports, the block sees no change. -/
theorem test_bar2Write_host_fault :
    (after (.bar2Write .b4 0x2000 0x1) { doneState with params := { Params.default with bar2WriteHost := .hostFault } }).history
      = [⟨.noWritePath, .hostFault⟩] := by decide

/-- VE-7: control = 6 from Done resets. -/
theorem test_bar0Write_reset : (after (.bar0Write .b4 0x00 0x6) doneState).block = Block.zero := by decide

/-- VE-13. -/
theorem test_cmdReset :
    (after .cmdReset (stateWith (rfBlock [(0x04, 1), (0x08, 2), (0x0C, 2), (0x30, 3)]))).block = Block.zero := by decide

/-- VE-9: START with reserved bit 3. -/
theorem test_cmdStart_registers :
    (after .cmdStart (stateWith (rfBlock [(0x00, 0x9)]))).block.rf = [(0x00, 0x8), (0x0C, 0x2)] := by decide

/-- VE-14 and VE-15: COMPUTE sees `input` before the clear, and FILL_BYTE is a parameter. -/
theorem test_cmdStart_compute :
    (after .cmdStart { stateWith (Block.zero.withInput [(0, 0xEF), (3, 0xDE)]) with
      params := { Params.default with strategy := .identity } }).block.output.read 3 = 0xDE#8 ∧
    (after .cmdStart { State.reset with params := { Params.default with fillByte := 0xA5 } }).block.output.load 0 4
      = 0xA5A5A5A5#64 := by decide

/-- VE-10: STOP with reserved bit 3, from Done. -/
theorem test_cmdStop_registers :
    (after .cmdStop (stateWith (rfBlock [(0x00, 0xA), (0x0C, 0x2)]))).block.rf = [(0x00, 0x8)] := by decide

/-- V2-5: STOP keeps `output`. -/
theorem test_cmdStop_keeps_output : (after .cmdStop doneState).block.output = doneState.block.output := by decide

/-- V0-19: bit 8 of `control` is no command. -/
theorem test_cmdNone : after .cmdNone (stateWith (rfBlock [(0x01, 0x1)])) = stateWith (rfBlock [(0x01, 0x1)]) := by decide

/-! ### Witnesses: a state and operands that meet the hypotheses of each statement, clause by clause -/

/-- A machine with one request waiting. -/
def waiting (d : BitVec 8) : State := State.reset.deliver ⟨d, 0, 0⟩

theorem witness_ResetValues :
    (State.reset.block = State.reset.block) ∧ (Block.zero = doneState.block.resetTransition) := ⟨rfl, rfl⟩

theorem witness_DecodeOfEncode :
    Instr.wellFormed .only4 (.bar0Write .b4 0xFFFFFFFFFFFFFFFF 0) = true ∧
    Instr.wellFormed .upTo4 (.bar0Read .b1 0x3F) = true ∧ Instr.wellFormed .only4 .cmdStart = true := by decide

theorem witness_EncodeOfDecode :
    decode .upTo4 (.transaction ⟨0x19#8, 0xFF8, 0x5⟩) = .ok (.bar1Read .b8 0xFF8) ∧
    decode .upTo4 (.transaction ⟨0x04#8, 0x0B, 0x55⟩) = .ok (.bar0Write .b1 0x0B 0x55) := by decide

theorem witness_BoundaryRefusals :
    (0x3F#8).extractLsb' 5 3 ≠ 0#3 ∧
    ((0x1F#8).extractLsb' 5 3 = 0#3 ∧ (0x1F#8).extractLsb' 0 2 = 3#2) ∧
    ((0x18#8).extractLsb' 5 3 = 0#3 ∧ (0x18#8).extractLsb' 0 2 = 0#2 ∧ (0x18#8).extractLsb' 3 2 = 3#2) ∧
    ((0x0C#8).extractLsb' 5 3 = 0#3 ∧ (0x0C#8).extractLsb' 0 2 = 0#2 ∧ (0x0C#8).extractLsb' 3 2 ≠ 2#2) ∧
    ((0x1E#8).extractLsb' 5 3 = 0#3 ∧ (0x1E#8).extractLsb' 0 2 ≠ 3#2 ∧ ¬ (0x1E#8).extractLsb' 0 2 = 0#2) := by decide

theorem witness_TableDescriptorsDecode :
    ((0x10#8).extractLsb' 3 2 = Size.b4.code ∧ 0x10#8 &&& 0xE7#8 = 0x00#8 ∧ Bar.admits .only4 .bar0 .b4 = true) ∧
    ((0x04#8).extractLsb' 3 2 = Size.b1.code ∧ 0x04#8 &&& 0xE7#8 = 0x04#8 ∧ Bar.admits .upTo4 .bar0 .b1 = true) ∧
    ((0x1C#8).extractLsb' 3 2 = Size.b8.code ∧ 0x1C#8 &&& 0xE7#8 = 0x04#8 ∧ Bar.admits .upTo4 .bar0 .b8 = false) ∧
    ((0x19#8).extractLsb' 3 2 = Size.b8.code ∧ 0x19#8 &&& 0xE7#8 = 0x01#8) ∧
    ((0x0D#8).extractLsb' 3 2 = Size.b2.code ∧ 0x0D#8 &&& 0xE7#8 = 0x05#8) ∧
    ((0x02#8).extractLsb' 3 2 = Size.b1.code ∧ 0x02#8 &&& 0xE7#8 = 0x02#8) ∧
    ((0x1E#8).extractLsb' 3 2 = Size.b8.code ∧ 0x1E#8 &&& 0xE7#8 = 0x06#8) := by decide

theorem witness_CommandBitsDecode :
    Selects (rfBlock [(0, 0xFF)]) .reset ∧ Selects (rfBlock [(0, 0xFB)]) .start ∧
    Selects (rfBlock [(0, 0xFA)]) .stop ∧ Selects (rfBlock [(0, 0xF8)]) .none := by decide

theorem witness_StepRunsDecoded :
    (waiting 0x10).requests = ⟨0x10, 0, 0⟩ :: [] ∧
    decode (waiting 0x10).params.bar0Widths (.transaction ⟨0x10, 0, 0⟩) = .ok (.bar0Read .b4 0) := by decide

theorem witness_StepWithoutRequest : State.reset.requests = [] := rfl

theorem witness_PlacedWordRunsNext :
    decode doneState.params.bar0Widths (.transaction ⟨0x06#8, 0#64, 0#64⟩) = .ok (.bar2Write .b1 0 0) := by decide

theorem witness_EveryTransactionCompletes :
    (waiting 0x1A).requests = ⟨0x1A, 0, 0⟩ :: [] ∧
    decode .upTo4 (.transaction ⟨0x1A, 0, 0⟩) = .ok (.bar2Read .b8 0) ∧
    decode .upTo4 (.transaction ⟨0x14, 0, 0⟩) = .ok (.bar0Write .b4 0 0) ∧
    decode .upTo4 (.transaction ⟨0x16, 0, 0⟩) = .ok (.bar2Write .b4 0 0) ∧
    (waiting 0x16).params.bar2WriteHost = .ignored ∧
    { waiting 0x16 with params := { Params.default with bar2WriteHost := .hostFault } }.params.bar2WriteHost =
      .hostFault := by decide

theorem witness_StopsOnlyAtBoundary : step (waiting 0x18) = .refused (.boundary .widthNotAdmitted) := rfl

theorem witness_HistoryIsNotRead :
    step (waiting 0x10) = .next (after (.bar0Read .b4 0) State.reset) ∧
    step (waiting 0x03) = .refused (.boundary .noWindow) := ⟨rfl, rfl⟩

theorem witness_NoLookAhead :
    (waiting 0x11).requests ≠ [] ∧ step (waiting 0x11) = .next (after (.bar1Read .b4 0) State.reset) ∧
    (waiting 0x20).requests ≠ [] ∧ step (waiting 0x20) = .refused (.boundary .reservedBits) :=
  ⟨by decide, rfl, by decide, rfl⟩

theorem witness_Bar0ReadResult :
    Bar.admits State.reset.params.bar0Widths .bar0 .b4 = true ∧
    (0x3C#64).toNat + Size.b4.bytes ≤ 64 ∧ 64 < (0x3D#64).toNat + Size.b4.bytes := by decide

theorem witness_Bar1ReadResult :
    (0xFF8#64).toNat + Size.b8.bytes ≤ 4096 ∧ 4096 < (0xFF9#64).toNat + Size.b8.bytes := by decide

theorem witness_Bar2ReadResult :
    (0xFFF#64).toNat + Size.b1.bytes ≤ 4096 ∧ 4096 < (0x1000#64).toNat + Size.b1.bytes := by decide

theorem witness_ReadsFrame :
    IsRead (.bar2Read .b8 0) ∧ exec (.bar2Read .b8 0) doneState = .next (after (.bar2Read .b8 0) doneState) :=
  ⟨⟨_, _, .inr (.inr rfl)⟩, rfl⟩

theorem witness_MixedWidthReads :
    Bar.admits State.reset.params.bar0Widths .bar0 .b1 = true ∧
    Bar.admits State.reset.params.bar0Widths .bar0 .b2 = true ∧
    Bar.admits State.reset.params.bar0Widths .bar0 .b4 = true := by decide

/-- A state between transactions that is not the creation state: `control` reserved bits, aliases, padding, Done. -/
def usedState : State :=
  stateWith { rf := [(0x00, 0xF8), (0x03, 0x80), (0x04, 0x07), (0x0B, 0xFF), (0x0C, 0x02), (0x3F, 0x11)]
              input := [(0, 0x5A), (4095, 0xA5)], output := [(7, 0x01)] }

theorem witness_ReadsBetweenTransactions :
    usedState.Inv ∧ Bar.admits usedState.params.bar0Widths .bar0 .b4 = true := by decide

theorem witness_OutOfRangeRejected :
    4096 < (0xFFF#64).toNat + Size.b2.bytes ∧ 64 < (0x3F#64).toNat + Size.b2.bytes ∧
    4096 < (0xFFFFFFFFFFFFFFFF#64).toNat + Size.b8.bytes ∧
    (0xFFF#64).toNat + Size.b1.bytes ≤ 4096 ∧ (0x3E#64).toNat + Size.b2.bytes ≤ 64 ∧
    Bar.admits State.reset.params.bar0Widths .bar0 .b2 = true := by decide

theorem witness_WidthAdmission :
    (Size.b8 = .b8 ∨ (State.reset.params.bar0Widths = .only4 ∧ Size.b8 ≠ .b4)) ∧
    ¬ (Size.b1 = .b8 ∨ (State.reset.params.bar0Widths = .only4 ∧ Size.b1 ≠ .b4)) := by decide

theorem witness_Bar0WriteDropped :
    64 < (0x3D#64).toNat + Size.b4.bytes ∧
    ((0x0B#64).toNat + Size.b2.bytes ≤ 64 ∧ (0x0B#64).toNat < 0x10 ∧ 0x0C < (0x0B#64).toNat + Size.b2.bytes) ∧
    ((0x0F#64).toNat + Size.b1.bytes ≤ 64 ∧ (0x0F#64).toNat < 0x10 ∧ 0x0C < (0x0F#64).toNat + Size.b1.bytes) ∧
    Accepted .b1 0x0B ∧ Accepted .b1 0x10 ∧ Accepted .b4 0x3C ∧
    Bar.admits State.reset.params.bar0Widths .bar0 .b4 = true := by decide

theorem witness_Bar0WriteRunsCommand :
    Accepted .b4 0x00 ∧ Bar.admits usedState.params.bar0Widths .bar0 .b4 = true ∧
    Selects (usedState.block.mergeRf .b4 0x00 0x7) .reset ∧ Selects (usedState.block.mergeRf .b4 0x00 0x3) .start ∧
    Selects (usedState.block.mergeRf .b4 0x00 0xA) .stop ∧ Selects (usedState.block.mergeRf .b4 0x00 0x8) .none := by decide

theorem witness_Bar0WriteWithoutCommand :
    Accepted .b2 0x3E ∧ (usedState.block.mergeRf .b2 0x3E 0x1234).commandBits = 0#3 ∧
    Bar.admits usedState.params.bar0Widths .bar0 .b2 = true := by decide

theorem witness_Bar0WriteFrame :
    exec (.bar0Write .b4 0x00 0x1) usedState = .next (after (.bar0Write .b4 0x00 0x1) usedState) ∧
    ¬ Accepted .b1 0x0C ∧ Selects (usedState.block.mergeRf .b4 0x00 0x1) .start ∧
    Selects (usedState.block.mergeRf .b1 0x00 0x2) .stop ∧ Selects (usedState.block.mergeRf .b1 0x3F 0x2) .none :=
  ⟨rfl, by decide, by decide, by decide, by decide⟩

theorem witness_Bar0ReadBack :
    usedState.Inv ∧ Bar.admits usedState.params.bar0Widths .bar0 .b4 = true ∧ Accepted .b4 0x00 ∧
    (usedState.block.mergeRf .b4 0x00 0x123456F8).commandBits = 0#3 ∧
    (byteOf 0x123456F8#64 0).extractLsb' 0 3 = 0#3 ∧ (0x01#64 ≠ 0#64) ∧
    ((0x0A#64).toNat < 0x10 ∧ 0x0C < (0x0A#64).toNat + Size.b4.bytes) ∧
    (exec (.bar0Write .b4 0x0A 0x1) usedState = .next (after (.bar0Write .b4 0x0A 0x1) usedState)) :=
  ⟨by decide, by decide, by decide, by decide, by decide, by decide, by decide, rfl⟩

theorem witness_StorageOnlyRegisters :
    usedState.Inv ∧ Bar.admits usedState.params.bar0Widths .bar0 .b4 = true ∧
    (0x04 ≤ (0x08#64).toNat ∧ (0x08#64).toNat + Size.b4.bytes ≤ 0x0C) ∧
    (0x10 ≤ (0x3C#64).toNat ∧ (0x3C#64).toNat + Size.b4.bytes ≤ 0x40) := by decide

theorem witness_HookFiresOnlyOnByteZero :
    usedState.Inv ∧ Accepted .b1 0x01 ∧ 0 < (0x01#64).toNat ∧
    Selects (usedState.block.mergeRf .b1 0x01 0x04) .none := by decide

theorem witness_Bar1WriteResult :
    (0xFF8#64).toNat + Size.b8.bytes ≤ 4096 ∧ 4096 < (0xFFC#64).toNat + Size.b8.bytes := by decide

theorem witness_Bar1WriteFrame :
    exec (.bar1Write .b8 0xFFC 0x1) usedState = .next (after (.bar1Write .b8 0xFFC 0x1) usedState) ∧
    4096 < (0xFFC#64).toNat + Size.b8.bytes := ⟨rfl, by decide⟩

theorem witness_Bar1RoundTrip :
    (0x3#64).toNat + Size.b4.bytes ≤ 4096 ∧
    exec (.bar1Write .b4 0x3 0xAABBCCDD) usedState = .next (after (.bar1Write .b4 0x3 0xAABBCCDD) usedState) ∧
    ∀ x, 3 ≤ x → x < 7 → (after (.bar2Read .b1 0) (after (.bar1Write .b4 0x3 0xAABBCCDD) usedState)).block.input.read x =
      (after (.bar1Write .b4 0x3 0xAABBCCDD) usedState).block.input.read x := ⟨by decide, rfl, fun _ _ _ => rfl⟩

theorem witness_Bar2WriteResult :
    State.reset.params.bar2WriteHost = .ignored ∧
    { State.reset with params := { Params.default with bar2WriteHost := .hostFault } }.params.bar2WriteHost = .hostFault :=
  ⟨rfl, rfl⟩

theorem witness_InputChangesOnlyBy :
    (exec (.bar1Write .b1 0x0 0x1) usedState = .next (after (.bar1Write .b1 0x0 0x1) usedState) ∧
      (after (.bar1Write .b1 0x0 0x1) usedState).block.input.read 0 ≠ usedState.block.input.read 0) ∧
    (exec .cmdStart usedState = .next (after .cmdStart usedState) ∧
      (after .cmdStart usedState).block.input.read 4095 ≠ usedState.block.input.read 4095) :=
  ⟨⟨rfl, by decide⟩, rfl, by decide⟩

theorem witness_OutputChangesOnlyBy :
    exec .cmdReset usedState = .next (after .cmdReset usedState) ∧
    ¬ SameBytes usedState.block.output (after .cmdReset usedState).block.output :=
  ⟨rfl, fun h => absurd (h 7) (by decide)⟩

theorem witness_ResetResult :
    Bar.admits usedState.params.bar0Widths .bar0 .b2 = true ∧ Accepted .b2 0x00 ∧
    (usedState.block.mergeRf .b2 0x00 0x0004).control.getLsbD 2 = true := by decide

theorem witness_StartResult :
    Bar.admits usedState.params.bar0Widths .bar0 .b1 = true ∧ Accepted .b1 0x00 ∧
    (usedState.block.mergeRf .b1 0x00 0x03).control.getLsbD 2 = false ∧
    (usedState.block.mergeRf .b1 0x00 0x03).control.getLsbD 0 = true ∧
    usedState.block.status.extractLsb' 2 30 = 0#30 := by decide

theorem witness_StopResult :
    Bar.admits usedState.params.bar0Widths .bar0 .b1 = true ∧ Accepted .b1 0x00 ∧
    (usedState.block.mergeRf .b1 0x00 0x02).control.getLsbD 2 = false ∧
    (usedState.block.mergeRf .b1 0x00 0x02).control.getLsbD 0 = false ∧
    (usedState.block.mergeRf .b1 0x00 0x02).control.getLsbD 1 = true := by decide

/-- A machine with this compute strategy. -/
def withStrategy (c : ComputeStrategy) : State := { usedState with params := { Params.default with strategy := c } }

theorem witness_ComputeResult :
    (exec .cmdStart (withStrategy .fill) = .next (after .cmdStart (withStrategy .fill)) ∧
      (withStrategy .fill).params.strategy = .fill) ∧
    (exec .cmdStart (withStrategy .identity) = .next (after .cmdStart (withStrategy .identity)) ∧
      (withStrategy .identity).params.strategy = .identity) ∧
    (exec .cmdStart (withStrategy (.pluggable 3)) = .next (after .cmdStart (withStrategy (.pluggable 3))) ∧
      (withStrategy (.pluggable 3)).params.strategy = .pluggable 3) := ⟨⟨rfl, rfl⟩, ⟨rfl, rfl⟩, rfl, rfl⟩

theorem witness_NeverBusyAndDone :
    exec .cmdStop usedState = .next (after .cmdStop usedState) ∧
    ¬ (usedState.block.busy = true ∧ usedState.block.done = true) := ⟨rfl, by decide⟩

theorem witness_TransitionTable :
    State.reset.Inv ∧ usedState.Inv ∧ Accepted .b4 0x00 ∧
    Selects (usedState.block.mergeRf .b4 0x00 0x5) .reset ∧ Selects (usedState.block.mergeRf .b4 0x00 0x1) .start ∧
    Selects (State.reset.block.mergeRf .b4 0x00 0x2) .stop ∧ Selects (State.reset.block.mergeRf .b4 0x00 0x0) .none ∧
    (exec (.bar0Write .b4 0x00 0x5) usedState = .next (after (.bar0Write .b4 0x00 0x5) usedState)) :=
  ⟨by decide, by decide, by decide, by decide, by decide, by decide, by decide, rfl⟩

theorem witness_StatusChangesOnlyByEngine :
    (exec .cmdStop usedState = .next (after .cmdStop usedState) ∧
      (after .cmdStop usedState).block.status ≠ usedState.block.status) ∧
    (exec .cmdReset (stateWith (rfBlock [(0x0D, 1)])) = .next (after .cmdReset (stateWith (rfBlock [(0x0D, 1)]))) ∧
      (after .cmdReset (stateWith (rfBlock [(0x0D, 1)]))).block.status.extractLsb' 2 30 ≠
        (stateWith (rfBlock [(0x0D, 1)])).block.status.extractLsb' 2 30) := ⟨⟨rfl, by decide⟩, rfl, by decide⟩

theorem witness_FirstPollReadsDone :
    usedState.Inv ∧ Bar.admits usedState.params.bar0Widths .bar0 .b4 = true := by decide

theorem witness_FieldAssignment : 31 < 32 ∧ 0x3F ≠ 0x00 ∧ 0x00 ≠ 0x0C := by decide

theorem witness_Idempotency :
    usedState.Inv ∧
    (exec (.bar0Read .b4 0) usedState = .next (after (.bar0Read .b4 0) usedState)) ∧
    (exec (.bar1Write .b4 0 1) usedState = .next (after (.bar1Write .b4 0 1) usedState) ∧
      exec (.bar1Write .b4 0 1) (after (.bar1Write .b4 0 1) usedState) =
        .next (after (.bar1Write .b4 0 1) (after (.bar1Write .b4 0 1) usedState))) ∧
    (exec (.bar0Write .b4 0 1) usedState = .next (after (.bar0Write .b4 0 1) usedState) ∧
      exec (.bar0Write .b4 0 1) (after (.bar0Write .b4 0 1) usedState) =
        .next (after (.bar0Write .b4 0 1) (after (.bar0Write .b4 0 1) usedState)) ∧
      Runs (.bar0Write .b4 0 1) usedState .start) ∧
    ((withStrategy .identity).Inv ∧ Bar.admits (withStrategy .identity).params.bar0Widths .bar0 .b4 = true ∧
      Runs (.bar0Write .b4 0 1) (withStrategy .identity) .start ∧ (withStrategy .identity).params.strategy = .identity ∧
      4095 < 4096 ∧ (withStrategy .identity).block.input.read 4095 ≠ 0x00#8) ∧
    ¬ Runs (.bar0Write .b4 0 2) usedState .start := by
  refine ⟨by decide, rfl, ⟨rfl, rfl⟩, ⟨rfl, rfl, .inr ⟨_, _, _, rfl, by decide, by decide⟩⟩,
    ⟨by decide, by decide, .inr ⟨_, _, _, rfl, by decide, by decide⟩, rfl, by decide, by decide⟩, ?_⟩
  rintro (h | ⟨_, _, _, h, _, h'⟩)
  · cases h
  · cases h
    exact absurd h' (by decide)

theorem witness_StepKeepsInvariant :
    (waiting 0x12).Inv ∧ step (waiting 0x12) = .next (after (.bar2Read .b4 0) State.reset) := ⟨by decide, rfl⟩

theorem witness_ReachableStates : Reachable (after (.bar0Read .b4 0) State.reset) :=
  .step (.creation Params.default [⟨0x10, 0, 0⟩]) rfl

theorem witness_ExecKeepsCanonicalForm :
    usedState.block.WellFormed ∧
    exec (.bar1Write .b1 0xFFF 0) usedState = .next (after (.bar1Write .b1 0xFFF 0) usedState) := ⟨by decide, rfl⟩

theorem witness_CanonicalFormIsUnique :
    Memory.wf 4096 [(0, 0x5A), (4095, 0xA5)] = true ∧ SameBytes [(0, 0x5A), (4095, 0xA5)] [(0, 0x5A), (4095, 0xA5)] :=
  ⟨by decide, fun _ => rfl⟩

theorem witness_ParametersAreFixed :
    step (waiting 0x01) = .next (after (.bar1Read .b1 0) State.reset) := rfl

end Sys2Proof.Tests
end

/-! The statements of the scope family: the canonical form of the byte arrays, COMPUTE's result, a field's assignment and
the parameters. Each rests on a lemma about one operation, or on `exec_cases` and `step_cases`. -/

namespace Sys2Proof.Machine

/-- The data windows' form rests on `Memory.zeros`, which RESET and START leave, and on `Memory.ofBytes`, from which START
fills `output` (R143, R146). -/
theorem Block.WellFormed.runCommand {b : Block} (hb : b.WellFormed) (p : Params) (c : Command) :
    (b.runCommand p c).WellFormed := by
  obtain ⟨hrf, hin, hout⟩ := hb
  refine ⟨Block.wf_rf_runCommand p b c hrf, ?_⟩
  cases c with
  | reset => exact ⟨Memory.wf_zeros _, Memory.wf_zeros _⟩
  | start =>
    refine ⟨Memory.wf_zeros _, ?_⟩
    simpa only [Block.runCommand, Block.startTransition_output] using Memory.wf_ofBytes (runCompute p b.input.bytes)
  | stop => exact ⟨hin, hout⟩
  | none => exact ⟨hin, hout⟩

theorem Block.WellFormed.mergeRf {b : Block} (hb : b.WellFormed) {size : Size} {offset : Word64} (wdata : Word64)
    (hr : inRange offset size Config.rfLen = true) : (b.mergeRf size offset wdata).WellFormed :=
  let ⟨hrf, hdata⟩ := hb
  ⟨Block.wf_mergeRf wdata ((inRange_iff ..).mp hr) hrf, hdata⟩

/-- Storing a BAR1 write that is in range (R123). -/
theorem Block.WellFormed.storeInput {b : Block} (hb : b.WellFormed) {size : Size} {offset : Word64} (wdata : Word64)
    (hr : inRange offset size Config.inLen = true) :
    (b.withInput (b.input.store offset.toNat wdata size.bytes)).WellFormed := by
  obtain ⟨hrf, hin, hout⟩ := hb
  exact ⟨hrf, Memory.wf_store wdata ((inRange_iff ..).mp hr) hin, hout⟩

/-- An instruction reaches the state only through `withBlock` and `record`, which touch neither field. -/
theorem exec_params_requests {i : Instr} {s t : State} (h : exec i s = .next t) :
    t.params = s.params ∧ t.requests = s.requests := by
  obtain ⟨_, rfl⟩ | ⟨_, _, _, -, -, -, rfl⟩ | ⟨_, _, _, -, -, rfl⟩ | ⟨_, -, rfl⟩ := exec_cases h <;>
    exact ⟨rfl, rfl⟩

/-- The bits of a register after the assignment of one bit of its lowest byte (R13). -/
theorem Block.getLsbD_read32_assignBit (b : Block) (o k : Nat) (v : Bool) (hk : k < 8) {j : Nat} (hj : j < 32) :
    ((b.assignBit o k v).read32 o).getLsbD j = if j = k then v else (b.read32 o).getLsbD j := by
  simp only [Block.getLsbD_read32, Block.read_assignBit, hj, decide_true, Bool.true_and]
  by_cases hlow : j < 8
  · have hdiv : j / 8 = 0 := by omega
    have hmod : j % 8 = j := by omega
    simp only [hdiv, hmod, Nat.add_zero, if_true, getLsbD_setBit _ _ _ _ hlow]
  · have hbyte : o + j / 8 ≠ o := by omega
    have hbit : j ≠ k := by omega
    simp only [hbyte, hbit, if_false]

/-- Writing `busy` and `done` together leaves what assigning them one after the other leaves (R31). -/
theorem Block.read_setBusyDone_eq_assignBits (b : Block) (busy done : Bool) (x : Nat) :
    (b.setBusyDone busy done).rf.read x =
      ((b.assignBit statusOffset 0 busy).assignBit statusOffset 1 done).rf.read x := by
  simp only [Block.read_setBusyDone, Block.read_assignBit, if_true]
  by_cases hx : x = statusOffset <;> simp only [hx, if_true, if_false]

/-- The bits of `status` after `busy` and `done` are written (R31). -/
theorem Block.getLsbD_status_setBusyDone (b : Block) (busy done : Bool) {j : Nat} (hj : j < 32) :
    (b.setBusyDone busy done).status.getLsbD j =
      if j = 0 then busy else if j = 1 then done else b.status.getLsbD j := by
  have hbits : (b.setBusyDone busy done).status =
      ((b.assignBit statusOffset 0 busy).assignBit statusOffset 1 done).status :=
    Block.read32_congr fun x _ _ => b.read_setBusyDone_eq_assignBits busy done x
  rw [hbits, Block.status, Block.getLsbD_read32_assignBit _ _ _ _ (by decide) hj,
    Block.getLsbD_read32_assignBit _ _ _ _ (by decide) hj, Block.status]
  by_cases h0 : j = 0
  · simp [h0]
  · simp only [h0, if_false]

end Sys2Proof.Machine

namespace Sys2Proof.Proofs

open Sys2Proof.Machine

/-- Settles O51: by `exec_cases` an instruction leaves the block as it was, or stores in range, or runs a command. -/
theorem execKeepsCanonicalForm : Obligations.ExecKeepsCanonicalForm := by
  intro i s t hs h
  obtain ⟨_, rfl⟩ | ⟨_, _, wdata, -, hr, -, rfl⟩ | ⟨_, _, wdata, -, hr, rfl⟩ | ⟨c, -, rfl⟩ := exec_cases h
  · exact hs
  · exact (hs.mergeRf wdata hr).runCommand s.params _
  · exact hs.storeInput wdata hr
  · exact hs.runCommand s.params c

/-- Settles O41: every byte of `output` after START is COMPUTE's, and COMPUTE goes by the strategy's name. -/
theorem computeResult : Obligations.ComputeResult := by
  intro s t x h
  cases h
  have hout : (s.block.startTransition s.params).output.read x.val = runCompute s.params s.block.input.bytes x := by
    rw [Block.startTransition_output, Memory.read_ofBytes, dif_pos x.isLt]
  simp only [State.withBlock_block, hout]
  refine ⟨fun hfill => ?_, fun hid => ?_, fun k hk => ?_, rfl, rfl⟩
  · simp only [runCompute, hfill]
  · simp only [runCompute, hid, Memory.bytes]
  · simp only [runCompute, hk]

/-- Settles O47: `start` and `stop` are single bits of byte 0x00, `busy` and `done` two bits of byte 0x0C. -/
theorem fieldAssignment : Obligations.FieldAssignment := by
  intro b v j hj
  refine ⟨b.getLsbD_read32_assignBit _ 0 v (by decide) hj, b.getLsbD_read32_assignBit _ 1 v (by decide) hj,
    fun x hx => ⟨?_, ?_⟩, fun busy done => ⟨b.getLsbD_status_setBusyDone busy done hj, fun x hx => ?_⟩⟩
  · exact (b.read_assignBit _ 0 v x).trans (if_neg hx)
  · exact (b.read_assignBit _ 1 v x).trans (if_neg hx)
  · exact (b.read_setBusyDone busy done x).trans (if_neg hx)

/-- Settles O53: by `step_cases` a step changes nothing, or executes an instruction on the state without its oldest
request. -/
theorem parametersAreFixed : Obligations.ParametersAreFixed := by
  intro s t h
  obtain ⟨hnil, rfl⟩ | ⟨r, rest, i, hcons, -, hexec⟩ := step_cases h
  · simp [hnil]
  · simpa [hcons] using exec_params_requests hexec

end Sys2Proof.Proofs

/-! The statements of the state family: what `status`, `control` and the data windows can become. Every transition's
effect on `status` is one assignment of `busy` and `done`, and `exec_block_cases` says once what an instruction can do to
the block. -/

namespace Sys2Proof.Machine

open Sys2Proof.Claims

/-! ### Windows -/

theorem Memory.wfFrom_cons {len lo k : Nat} {c : Byte} {m : Memory} :
    Memory.wfFrom len lo ((k, c) :: m) = true ↔ lo ≤ k ∧ k < len ∧ c ≠ 0#8 ∧ m.wfFrom len (k + 1) = true := by
  simp [Memory.wfFrom, Memory.unlisted, and_assoc]

/-- A window in canonical form lists nothing below its least offset. -/
theorem Memory.read_of_lt {len lo : Nat} {m : Memory} (hm : m.wfFrom len lo = true) {x : Nat} (hx : x < lo) :
    m.read x = 0#8 := by
  induction m generalizing lo with
  | nil => rfl
  | cons e m ih =>
    obtain ⟨k, c⟩ := e
    obtain ⟨hk, -, -, hm⟩ := Memory.wfFrom_cons.mp hm
    rw [Memory.read, if_neg (by omega)]
    exact ih hm (by omega)

/-- The first offset listed is the least that reads other than 0x00. -/
theorem Memory.head_le_of_read_ne {len lo k x : Nat} {c : Byte} {m : Memory}
    (hm : Memory.wfFrom len lo ((k, c) :: m) = true) (hx : Memory.read ((k, c) :: m) x ≠ 0#8) : k ≤ x := by
  obtain ⟨-, hlen, hc, htail⟩ := Memory.wfFrom_cons.mp hm
  refine Nat.le_of_not_lt fun hlt => hx ?_
  exact Memory.read_of_lt (Memory.wfFrom_cons.mpr ⟨Nat.le_refl k, hlen, hc, htail⟩) hlt

@[simp] theorem Memory.read_head (k : Nat) (c : Byte) (m : Memory) : Memory.read ((k, c) :: m) k = c := by
  simp [Memory.read]

/-- The tails of windows that have the same first cell read the same if the windows do. -/
theorem Memory.sameBytes_tail {len k : Nat} {c : Byte} {m m' : Memory} (hm : m.wfFrom len (k + 1) = true)
    (hm' : m'.wfFrom len (k + 1) = true) (h : SameBytes ((k, c) :: m) ((k, c) :: m')) : SameBytes m m' := by
  intro x
  by_cases hx : x = k
  · rw [Memory.read_of_lt hm (by omega), Memory.read_of_lt hm' (by omega)]
  · simpa [Memory.read, Ne.symm hx] using h x

/-- Both windows list the same least offset, or one of them would read 0x00 where the other does not. -/
theorem Memory.eq_of_sameBytes {len lo : Nat} {m m' : Memory} (hm : m.wfFrom len lo = true)
    (hm' : m'.wfFrom len lo = true) (h : SameBytes m m') : m = m' := by
  induction m generalizing lo m' with
  | nil =>
    cases m' with
    | nil => rfl
    | cons e' m' =>
      obtain ⟨k', c'⟩ := e'
      obtain ⟨-, -, hc', -⟩ := Memory.wfFrom_cons.mp hm'
      exact absurd (by simpa using h k') hc'
  | cons e m ih =>
    obtain ⟨k, c⟩ := e
    obtain ⟨-, -, hc, htail⟩ := Memory.wfFrom_cons.mp hm
    cases m' with
    | nil => exact absurd (by simpa using (h k).symm) hc
    | cons e' m' =>
      obtain ⟨k', c'⟩ := e'
      obtain ⟨-, -, hc', htail'⟩ := Memory.wfFrom_cons.mp hm'
      have hle : k' ≤ k := Memory.head_le_of_read_ne hm' (by rwa [h k, Memory.read_head])
      have hge : k ≤ k' := Memory.head_le_of_read_ne hm (by rwa [← h k', Memory.read_head])
      obtain rfl : k = k' := Nat.le_antisymm hge hle
      obtain rfl : c = c' := by simpa using (h k).symm
      rw [ih htail htail' (Memory.sameBytes_tail htail htail' h)]

/-- A load of the bytes just stored gives back the value, cut to the width (R85, R86). -/
theorem Memory.load_store (m : Memory) (o : Nat) (v : Word64) (size : Size) :
    (m.store o v size.bytes).load o size.bytes = v &&& ones size.bytes := by
  refine byteOf_ext fun i hi => ?_
  have hand : byteOf (v &&& ones size.bytes) i = byteOf v i &&& byteOf (ones size.bytes) i := BitVec.extractLsb'_and
  rw [Memory.byteOf_load _ _ _ _ size.bytes_le, hand, byteOf_ones size i hi]
  by_cases h : i < size.bytes
  · rw [if_pos h, if_pos h, Memory.read_store, if_pos (by omega), Nat.add_sub_cancel_left]
    exact (BitVec.and_allOnes (x := byteOf v i)).symm
  · rw [if_neg h, if_neg h]
    exact BitVec.and_zero.symm

/-! ### `status` and `control` under the assignments and the transitions -/

/-- The bits of byte 0x00 are no bits of `status` (R21). -/
theorem Block.status_assignBit_control (b : Block) (k : Nat) (v : Bool) :
    (b.assignBit controlOffset k v).status = b.status := by
  refine Block.read32_congr fun x hx _ => ?_
  rw [Block.read_assignBit, if_neg (by simp only [controlOffset, statusOffset] at *; omega)]

@[simp] theorem Block.status_setStart (b : Block) (v : Bool) : (b.setStart v).status = b.status :=
  b.status_assignBit_control 0 v

@[simp] theorem Block.status_setStop (b : Block) (v : Bool) : (b.setStop v).status = b.status :=
  b.status_assignBit_control 1 v

@[simp] theorem Block.control_setBusyDone (b : Block) (busy done : Bool) :
    (b.setBusyDone busy done).control = b.control := by
  refine Block.read32_congr fun x _ hx => ?_
  rw [Block.read_setBusyDone, if_neg (by simp only [controlOffset, statusOffset] at *; omega)]

@[simp] theorem Block.busy_setBusyDone (b : Block) (busy done : Bool) : (b.setBusyDone busy done).busy = busy :=
  b.getLsbD_status_setBusyDone busy done (by decide)

@[simp] theorem Block.done_setBusyDone (b : Block) (busy done : Bool) : (b.setBusyDone busy done).done = done :=
  b.getLsbD_status_setBusyDone busy done (by decide)

/-- `busy` and `done` are not among `status[31:2]` (R26). -/
@[simp] theorem Block.status_high_setBusyDone (b : Block) (busy done : Bool) :
    (b.setBusyDone busy done).status.extractLsb' 2 30 = b.status.extractLsb' 2 30 := by
  apply BitVec.eq_of_getLsbD_eq
  intro j hj
  simp only [BitVec.getLsbD_extractLsb', hj, decide_true, Bool.true_and]
  rw [b.getLsbD_status_setBusyDone busy done (by omega), if_neg (by omega), if_neg (by omega)]

/-- `status` after `busy` and `done` are written is a matter of `status[31:2]` before, so a second such write undoes the
first (R31). -/
theorem Block.status_setBusyDone_congr {b c : Block} (busy done : Bool)
    (h : b.status.extractLsb' 2 30 = c.status.extractLsb' 2 30) :
    (b.setBusyDone busy done).status = (c.setBusyDone busy done).status := by
  apply BitVec.eq_of_getLsbD_eq
  intro j hj
  rw [b.getLsbD_status_setBusyDone busy done hj, c.getLsbD_status_setBusyDone busy done hj]
  by_cases hlow : j < 2
  · have : j = 0 ∨ j = 1 := by omega
    obtain rfl | rfl := this <;> rfl
  · have hbit := congrArg (fun v => v.getLsbD (j - 2)) h
    have hsub : j - 2 < 30 := by omega
    have hadd : 2 + (j - 2) = j := by omega
    simp only [BitVec.getLsbD_extractLsb', hsub, decide_true, Bool.true_and, hadd] at hbit
    rw [if_neg (by omega), if_neg (by omega), if_neg (by omega), if_neg (by omega), hbit]

/-- The engine's state is a view of `status` (R30). -/
theorem Block.engine_congr {b c : Block} (h : b.status = c.status) : b.engine = c.engine := by
  simp only [Block.engine, Block.busy, Block.done, h]

theorem Block.status_startEnter (b : Block) : b.startEnter.status = (b.setBusyDone true false).status := by
  rw [Block.startEnter, Block.status_setStop]

theorem Block.status_startCompute (p : Params) (b : Block) : (b.startCompute p).status = b.status := rfl

/-- START's net effect on `status` is that of its second assignment of `busy` and `done` (R146). -/
theorem Block.status_startTransition (p : Params) (b : Block) :
    (b.startTransition p).status = (b.setBusyDone false true).status := by
  rw [Block.startTransition, Block.startFinish, Block.status_setStart]
  apply Block.status_setBusyDone_congr
  rw [Block.status_startCompute, Block.status_startEnter, Block.status_high_setBusyDone]

/-- STOP's net effect on `status` (R149). -/
theorem Block.status_stopTransition (b : Block) : b.stopTransition.status = (b.setBusyDone false false).status := by
  rw [Block.stopTransition, Block.status_setStop, Block.stopStub, Block.status_setStart]

@[simp] theorem Block.engine_startEnter (b : Block) : b.startEnter.engine = some .busy := by
  rw [Block.engine_congr b.status_startEnter]
  simp [Block.engine]

@[simp] theorem Block.engine_startTransition (p : Params) (b : Block) : (b.startTransition p).engine = some .done := by
  rw [Block.engine_congr (b.status_startTransition p)]
  simp [Block.engine]

@[simp] theorem Block.engine_stopTransition (b : Block) : b.stopTransition.engine = some .idle := by
  rw [Block.engine_congr b.status_stopTransition]
  simp [Block.engine]

/-- Only `(1,1)` encodes no state of the engine (R30). -/
theorem Block.engine_eq_none_iff (b : Block) : b.engine = none ↔ b.busy = true ∧ b.done = true := by
  cases h : b.busy <;> cases h' : b.done <;> simp [Block.engine, h, h']

/-- START and STOP leave `status[31:2]` alone, and NONE leaves all of it (R146, R149, R152). -/
theorem Block.status_high_runCommand (p : Params) (b : Block) {c : Command} (hc : c ≠ .reset) :
    (b.runCommand p c).status.extractLsb' 2 30 = b.status.extractLsb' 2 30 := by
  cases c with
  | reset => exact absurd rfl hc
  | start => rw [Block.runCommand, Block.status_startTransition, Block.status_high_setBusyDone]
  | stop => rw [Block.runCommand, Block.status_stopTransition, Block.status_high_setBusyDone]
  | none => rfl

theorem Block.getLsbD_control_setStart (b : Block) (v : Bool) {j : Nat} (hj : j < 32) :
    (b.setStart v).control.getLsbD j = if j = 0 then v else b.control.getLsbD j :=
  b.getLsbD_read32_assignBit controlOffset 0 v (by decide) hj

theorem Block.getLsbD_control_setStop (b : Block) (v : Bool) {j : Nat} (hj : j < 32) :
    (b.setStop v).control.getLsbD j = if j = 1 then v else b.control.getLsbD j :=
  b.getLsbD_read32_assignBit controlOffset 1 v (by decide) hj

theorem Block.control_startCompute (p : Params) (b : Block) : (b.startCompute p).control = b.control := rfl

/-- START clears `control.start` and `control.stop` and leaves `control[31:2]` alone (R146). -/
theorem Block.getLsbD_control_startTransition (p : Params) (b : Block) {j : Nat} (hj : j < 32) :
    (b.startTransition p).control.getLsbD j = if j = 0 ∨ j = 1 then false else b.control.getLsbD j := by
  rw [Block.startTransition, Block.startFinish, Block.getLsbD_control_setStart _ _ hj, Block.control_setBusyDone,
    Block.control_startCompute, Block.startEnter, Block.getLsbD_control_setStop _ _ hj, Block.control_setBusyDone]
  by_cases h : j = 0
  · rw [if_pos h, if_pos (.inl h)]
  · simp only [h, if_false, false_or]

/-- STOP clears `control.start` and `control.stop` and leaves `control[31:2]` alone (R149). -/
theorem Block.getLsbD_control_stopTransition (b : Block) {j : Nat} (hj : j < 32) :
    b.stopTransition.control.getLsbD j = if j = 0 ∨ j = 1 then false else b.control.getLsbD j := by
  rw [Block.stopTransition, Block.getLsbD_control_setStop _ _ hj, Block.stopStub,
    Block.getLsbD_control_setStart _ _ hj, Block.control_setBusyDone]
  by_cases h : j = 1
  · rw [if_pos h, if_pos (.inr h)]
  · simp only [h, if_false, or_false]

theorem Block.getLsbD_commandBits (b : Block) {j : Nat} (hj : j < 3) :
    b.commandBits.getLsbD j = b.control.getLsbD j := by
  simp [Block.commandBits, hj]

theorem Block.zero_commandBits : Block.zero.commandBits = 0#3 := by decide

theorem Block.zero_status : Block.zero.status = 0x00000000#32 := by decide

@[simp] theorem Block.engine_zero : Block.zero.engine = some .idle := by decide

/-- The command bits are zero when each of the three is clear (R22). -/
theorem Block.commandBits_eq_zero {b : Block} (hstart : b.start = false) (hstop : b.stop = false)
    (hreset : b.resetBit = false) : b.commandBits = 0#3 := by
  apply BitVec.eq_of_getLsbD_eq
  intro j hj
  rw [b.getLsbD_commandBits hj, BitVec.getLsbD_zero]
  have : j = 0 ∨ j = 1 ∨ j = 2 := by omega
  obtain rfl | rfl | rfl := this
  · exact hstart
  · exact hstop
  · exact hreset

/-- RESET clears all three command bits, START and STOP their two, and they run only where `control.reset` is clear
(R33). -/
theorem Block.commandBits_runCommand (p : Params) {b : Block} {c : Command}
    (hreset : c ≠ .reset → b.resetBit = false) (hnone : c = .none → b.commandBits = 0#3) :
    (b.runCommand p c).commandBits = 0#3 := by
  cases c with
  | reset => exact Block.zero_commandBits
  | start =>
    have hbit {j : Nat} (hj : j < 32) := b.getLsbD_control_startTransition p hj
    exact Block.commandBits_eq_zero (hbit (by decide)) (hbit (by decide))
      ((hbit (by decide)).trans (hreset (by decide)))
  | stop =>
    have hbit {j : Nat} (hj : j < 32) := b.getLsbD_control_stopTransition hj
    exact Block.commandBits_eq_zero (hbit (by decide)) (hbit (by decide))
      ((hbit (by decide)).trans (hreset (by decide)))
  | none => exact hnone rfl

/-- `status` with zero in bits 31:2 is Done after START, Idle after STOP or RESET, and unchanged by NONE (R32). -/
theorem Block.status_runCommand (p : Params) {b : Block} (c : Command)
    (hs : b.status = 0x00000000#32 ∨ b.status = 0x00000002#32) :
    (b.runCommand p c).status = 0x00000000#32 ∨ (b.runCommand p c).status = 0x00000002#32 := by
  have hhigh : b.status.extractLsb' 2 30 = Block.zero.status.extractLsb' 2 30 := by
    obtain hs | hs := hs <;> rw [hs] <;> rfl
  cases c with
  | reset => exact .inl Block.zero_status
  | start =>
    refine .inr ?_
    rw [Block.runCommand, Block.status_startTransition, Block.status_setBusyDone_congr _ _ hhigh]
    rfl
  | stop =>
    refine .inl ?_
    rw [Block.runCommand, Block.status_stopTransition, Block.status_setBusyDone_congr _ _ hhigh]
    rfl
  | none => exact hs

/-! ### The merge of a BAR0 write -/

/-- A write that does not overlap `status` leaves it as it was (R104). -/
theorem Block.status_mergeRf (b : Block) {size : Size} {offset : Word64} (wdata : Word64)
    (ho : overlapsStatus offset size = false) : (b.mergeRf size offset wdata).status = b.status := by
  have hno : ¬ (offset.toNat < 0x10 ∧ 0x0C < offset.toNat + size.bytes) := by
    rw [← overlapsStatus_iff, ho]; decide
  refine Block.read32_congr fun x hlo hhi => ?_
  rw [Block.read_mergeRf, if_neg (by simp only [statusOffset] at *; omega)]

/-- A write past `control` leaves it as it was (R21). -/
theorem Block.control_mergeRf (b : Block) {size : Size} {offset : Word64} (wdata : Word64)
    (ho : 0x04 ≤ offset.toNat) : (b.mergeRf size offset wdata).control = b.control := by
  refine Block.read32_congr fun x _ hhi => ?_
  rw [Block.read_mergeRf, if_neg (by simp only [controlOffset] at *; omega)]

/-- `Selects` names the command that the hook decodes (R142). -/
theorem selects_decodeCommand (b : Block) : Selects b (decodeCommand b.commandBits) := by
  have h0 := b.getLsbD_commandBits (j := 0) (by decide)
  have h1 := b.getLsbD_commandBits (j := 1) (by decide)
  have h2 := b.getLsbD_commandBits (j := 2) (by decide)
  rw [Selects, ← h0, ← h1, ← h2]
  obtain ⟨hr, h⟩ | ⟨hr, hs, h⟩ | ⟨hr, hs, ht, h⟩ | ⟨hz, h⟩ := decodeCommand_cases b.commandBits
  · exact .inl ⟨hr, h⟩
  · exact .inr (.inl ⟨hr, hs, h⟩)
  · exact .inr (.inr (.inl ⟨hr, hs, ht, h⟩))
  · exact .inr (.inr (.inr (by rw [hz]; exact ⟨rfl, rfl, rfl, rfl⟩)))

/-- The checks of an accepted BAR0 write, as the statements name them (R104). -/
theorem accepted_iff (size : Size) (offset : Word64) :
    Accepted size offset ↔ inRange offset size Config.rfLen = true ∧ overlapsStatus offset size = false := by
  rw [← Bool.not_eq_true, inRange_iff, overlapsStatus_iff]

/-- With the command bits clear the hook runs nothing (R152). -/
theorem Block.hook_of_commandBits {b : Block} (p : Params) (h : b.commandBits = 0#3) : b.hook p = b := by
  rw [Block.hook, h]; rfl

/-- An accepted BAR0 write merges its bytes and runs the hook (R103, R105). -/
theorem exec_bar0Write_of_accepted {size : Size} {offset wdata : Word64} {s : State}
    (hw : Bar.admits s.params.bar0Widths .bar0 size = true) (ha : Accepted size offset) :
    exec (.bar0Write size offset wdata) s =
      .next ((s.withBlock ((s.block.mergeRf size offset wdata).hook s.params)).record (writeEvent .okWrite)) := by
  obtain ⟨hr, ho⟩ := (accepted_iff size offset).mp ha
  have hres : bar0WriteResult size offset wdata s =
      (s.withBlock ((s.block.mergeRf size offset wdata).hook s.params)).record (writeEvent .okWrite) := by
    simp [bar0WriteResult, hr, ho]
  rw [← hres]
  exact atBoundary_of_admits hw

/-- A BAR0 read in range records the bytes it loads (R100). -/
theorem exec_bar0Read_of_inRange {size : Size} {offset : Word64} {s : State}
    (hw : Bar.admits s.params.bar0Widths .bar0 size = true) (hr : offset.toNat + size.bytes ≤ Config.rfLen) :
    exec (.bar0Read size offset) s =
      .next (s.record ⟨.okRead, .data (s.block.rf.load offset.toNat size.bytes)⟩) := by
  rw [← readEvent_of_inRange hr]
  exact atBoundary_of_admits hw

/-! ### What an instruction can do to the block -/

/-- An instruction leaves the block as it was, stores a BAR1 write in `input`, or runs a command, on the block it found
or on one that differs from it in register bytes outside `status`. -/
theorem exec_block_cases {i : Instr} {s t : State} (h : exec i s = .next t) :
    t.block = s.block ∨
    (∃ size offset wdata, i = .bar1Write size offset wdata ∧ offset.toNat + size.bytes ≤ Config.inLen ∧
      t.block = s.block.withInput (s.block.input.store offset.toNat wdata size.bytes)) ∨
    (∃ (b : Block) (c : Command), Runs i s c ∧ t.block = b.runCommand s.params c ∧ b.status = s.block.status ∧
      b.input = s.block.input ∧ b.output = s.block.output) := by
  obtain ⟨_, rfl⟩ | ⟨size, offset, wdata, hi, hr, ho, rfl⟩ | ⟨size, offset, wdata, hi, hr, rfl⟩ | ⟨c, hi, rfl⟩ :=
    exec_cases h
  · exact .inl rfl
  · exact .inr (.inr ⟨s.block.mergeRf size offset wdata, decodeCommand _,
      .inr ⟨size, offset, wdata, hi, (accepted_iff size offset).mpr ⟨hr, ho⟩, selects_decodeCommand _⟩, rfl,
      s.block.status_mergeRf wdata ho, rfl, rfl⟩)
  · exact .inr (.inl ⟨size, offset, wdata, hi, (inRange_iff ..).mp hr, rfl⟩)
  · exact .inr (.inr ⟨s.block, c, .inl hi, rfl, rfl, rfl, rfl⟩)

/-! ### The invariant between transactions -/

/-- A command run where the command bits select it, or where none is set, leaves what holds between transactions
(R32, R33). -/
theorem Block.inv_runCommand (p : Params) {b : Block} {c : Command} (hwf : b.WellFormed)
    (hs : b.status = 0x00000000#32 ∨ b.status = 0x00000002#32) (hreset : c ≠ .reset → b.resetBit = false)
    (hnone : c = .none → b.commandBits = 0#3) : (b.runCommand p c).Inv :=
  ⟨hwf.runCommand p c, b.commandBits_runCommand p hreset hnone, b.status_runCommand p c hs⟩

theorem Block.inv_hook (p : Params) {b : Block} (hwf : b.WellFormed)
    (hs : b.status = 0x00000000#32 ∨ b.status = 0x00000002#32) : (b.hook p).Inv := by
  have hreset : b.resetBit = b.commandBits.getLsbD 2 := (b.getLsbD_commandBits (by decide)).symm
  obtain ⟨-, h⟩ | ⟨hr, -, h⟩ | ⟨hr, -, -, h⟩ | ⟨hz, h⟩ := decodeCommand_cases b.commandBits <;>
    rw [Block.hook, h]
  · exact b.inv_runCommand p hwf hs (absurd rfl) (by simp)
  · exact b.inv_runCommand p hwf hs (fun _ => hreset.trans hr) (by simp)
  · exact b.inv_runCommand p hwf hs (fun _ => hreset.trans hr) (by simp)
  · exact b.inv_runCommand p hwf hs (fun _ => by rw [hreset, hz]; rfl) (fun _ => hz)

/-- Every instruction keeps what holds between transactions, a command that no transaction triggered among them. -/
theorem State.Inv.exec {i : Instr} {s t : State} (hs : s.Inv) (h : Machine.exec i s = .next t) : t.Inv := by
  obtain ⟨hwf, hcmd, hstatus⟩ := hs
  obtain ⟨_, rfl⟩ | ⟨_, _, wdata, -, hr, ho, rfl⟩ | ⟨_, _, wdata, -, hr, rfl⟩ | ⟨c, -, rfl⟩ := exec_cases h
  · exact ⟨hwf, hcmd, hstatus⟩
  · exact Block.inv_hook s.params (hwf.mergeRf wdata hr) (by rwa [s.block.status_mergeRf wdata ho])
  · exact ⟨hwf.storeInput wdata hr, hcmd, hstatus⟩
  · refine s.block.inv_runCommand s.params hwf hstatus (fun _ => ?_) (fun _ => hcmd)
    rw [Block.resetBit, ← s.block.getLsbD_commandBits (by decide), hcmd]
    rfl

/-- A step keeps it: the request that it takes is no part of the block. -/
theorem State.Inv.step {s t : State} (hs : s.Inv) (h : Machine.step s = .next t) : t.Inv := by
  obtain ⟨-, rfl⟩ | ⟨_, rest, _, -, -, hexec⟩ := step_cases h
  · exact hs
  · exact State.Inv.exec (s := { s with requests := rest }) hs hexec

theorem State.inv_reset : State.reset.Inv :=
  ⟨⟨rfl, rfl, rfl⟩, Block.zero_commandBits, .inl Block.zero_status⟩

theorem Reachable.inv {s : State} (hs : Reachable s) : s.Inv := by
  induction hs with
  | creation p rs => exact State.inv_reset
  | step _ h ih => exact ih.step h

end Sys2Proof.Machine

namespace Sys2Proof.Proofs

open Sys2Proof.Machine Sys2Proof.Claims

/-- Settles O49: by `step_cases` and `exec_cases` a step changes no register, merges bytes outside `status` and runs the
hook, or stores in `input`; the hook clears the command bits and leaves `status` Idle or Done. -/
theorem stepKeepsInvariant : Obligations.StepKeepsInvariant := fun _ _ hs h => hs.step h

/-- Settles O29: such a write is accepted and covers no byte of `control` or `status`, so that the command bits stay
clear and the hook runs nothing. -/
theorem storageOnlyRegisters : Obligations.StorageOnlyRegisters := by
  intro s size offset wdata hs hw hrange
  obtain ⟨-, hcmd, -⟩ := hs
  have hacc : Accepted size offset := ⟨by omega, by omega⟩
  have hcontrol := s.block.control_mergeRf (size := size) (offset := offset) wdata (by omega)
  have hmerge : (s.block.mergeRf size offset wdata).commandBits = 0#3 := by
    rw [Block.commandBits, hcontrol]; exact hcmd
  refine ⟨_, exec_bar0Write_of_accepted hw hacc, ?_⟩
  rw [Block.hook_of_commandBits s.params hmerge]
  refine ⟨s.block.read_mergeRf size offset wdata, hcontrol,
    s.block.status_mergeRf wdata ((accepted_iff size offset).mp hacc).2, rfl, rfl, ?_⟩
  rw [exec_bar0Read_of_inRange (by exact hw) hacc.1, State.record_block, State.withBlock_block, Block.mergeRf,
    Block.withRf_rf, Memory.load_store]

/-- Settles O35: STOP and NONE leave `input` as they find it, and a BAR1 write changes only the bytes it covers. -/
theorem inputChangesOnlyBy : Obligations.InputChangesOnlyBy := by
  intro i s t x h hne
  obtain hb | ⟨size, offset, wdata, hi, hr, hb⟩ | ⟨b, c, hruns, hb, -, hin, -⟩ := exec_block_cases h <;> rw [hb] at hne
  · exact absurd rfl hne
  · refine .inl ⟨size, offset, wdata, hi, ?_⟩
    have hcover : offset.toNat ≤ x ∧ x < offset.toNat + size.bytes := by
      refine Decidable.by_contra fun hout => hne ?_
      rw [Block.withInput_input, Memory.read_store, if_neg hout]
    exact ⟨hcover.1, hcover.2, hr⟩
  · cases c with
    | reset => exact .inr (.inr hruns)
    | start => exact .inr (.inl hruns)
    | stop => exact absurd (by rw [Block.runCommand, Block.stopTransition_input, hin]) hne
    | none => exact absurd (by rw [Block.runCommand, hin]) hne

/-- Settles O36: only START and RESET write `output`, and START runs COMPUTE on the `input` that the instruction
found. -/
theorem outputChangesOnlyBy : Obligations.OutputChangesOnlyBy := by
  intro i s t h hne
  obtain hb | ⟨_, _, _, -, -, hb⟩ | ⟨b, c, hruns, hb, -, hin, hout⟩ := exec_block_cases h <;> rw [hb] at hne ⊢
  · exact absurd (fun _ => rfl) hne
  · exact absurd (fun _ => rfl) hne
  · cases c with
    | reset => exact .inr ⟨hruns, fun _ => rfl⟩
    | start =>
      refine .inl ⟨hruns, fun x => ?_⟩
      rw [Block.runCommand, Block.startTransition_output, Memory.read_ofBytes, hin]
    | stop => exact absurd (fun _ => by rw [Block.runCommand, Block.stopTransition_output, hout]) hne
    | none => exact absurd (fun _ => by rw [Block.runCommand, hout]) hne

/-- Settles O42: the engine's state is read off the last assignment of `busy` and `done`, and a block that no command
touched last keeps its `status`. -/
theorem neverBusyAndDone : Obligations.NeverBusyAndDone := by
  refine ⟨fun p b => ⟨b.engine_startEnter, ?_, b.engine_startTransition p, b.engine_stopTransition, Block.engine_zero⟩,
    fun i s t h => ?_⟩
  · rw [Block.engine_congr (b.startEnter.status_startCompute p), Block.engine_startEnter]
  simp only [← Block.engine_eq_none_iff]
  obtain hb | ⟨_, _, _, -, -, hb⟩ | ⟨b, c, -, hb, hstatus, -⟩ := exec_block_cases h <;> rw [hb]
  · exact id
  · exact id
  · cases c with
    | reset => simp [Block.runCommand]
    | start => simp [Block.runCommand]
    | stop => simp [Block.runCommand]
    | none => rw [Block.runCommand, Block.engine_congr hstatus]; exact id

/-- Settles O45: an instruction that runs no command writes no byte of `status`, and of the commands only RESET writes
`status[31:2]`. -/
theorem statusChangesOnlyByEngine : Obligations.StatusChangesOnlyByEngine := by
  intro i s t h
  obtain hb | ⟨_, _, _, -, -, hb⟩ | ⟨b, c, hruns, hb, hstatus, -⟩ := exec_block_cases h <;> rw [hb]
  · exact ⟨absurd rfl, absurd rfl⟩
  · exact ⟨absurd rfl, absurd rfl⟩
  · rw [← hstatus]
    refine ⟨fun hne => ?_, fun hne => ?_⟩
    · cases c with
      | reset => exact .inr (.inr hruns)
      | start => exact .inl hruns
      | stop => exact .inr (.inl hruns)
      | none => exact absurd rfl hne
    · obtain rfl : c = .reset := Decidable.by_contra fun hc => hne (b.status_high_runCommand s.params hc)
      exact ⟨hruns, by rw [Block.runCommand, Block.resetTransition_eq, Block.zero_status]; rfl⟩

/-- Settles O50: by induction on the run the invariant holds, and its two values of `status` settle the fields. -/
theorem reachableStates : Obligations.ReachableStates := by
  intro s hs
  obtain ⟨hwf, hcmd, hstatus⟩ := hs.inv
  refine ⟨⟨hwf, hcmd, hstatus⟩, hcmd, ?_⟩
  simp only [Block.error, Block.engine, Block.busy, Block.done]
  obtain hstatus | hstatus := hstatus <;> rw [hstatus] <;> decide

/-- Settles O52: the least offset listed is the least that does not read 0x00, so the lists agree cell by cell. -/
theorem canonicalFormIsUnique : Obligations.CanonicalFormIsUnique :=
  fun _ _ _ hm hm' h => Memory.eq_of_sameBytes hm hm' h

/-- Settles O1: creation and RESET both leave the block with no cell listed. -/
theorem resetValues : Obligations.ResetValues := by
  rintro b0 b hb
  obtain rfl : b = Block.zero := by
    obtain hb | hb := hb
    · exact hb
    · rw [hb, Block.resetTransition_eq]
  exact ⟨fun x => ⟨rfl, rfl, rfl⟩, by decide⟩

/-- Settles O2: no window lists a cell, and the registers read zero. -/
theorem resetMeetsInvariant : Obligations.ResetMeetsInvariant := State.inv_reset

/-- Settles O10: with no request there is nothing to fetch. -/
theorem stepWithoutRequest : Obligations.StepWithoutRequest := by
  intro s h
  rw [step, State.fetch_nil h]

end Sys2Proof.Proofs

/-! The statements of the memory family: bounds, widths and byte order of an access, the step's order, and which
transactions are idempotent. `exec_bar0Read` and its siblings say what each transaction answers once its width is
admitted, `Command.onByte` what a command does to each byte of the register file. -/

namespace Sys2Proof.Machine

open Sys2Proof.Claims

/-! ### What a transaction of an admitted width answers -/

theorem exec_bar0Read {size : Size} {s : State} (offset : Word64)
    (hw : Bar.admits s.params.bar0Widths .bar0 size = true) :
    exec (.bar0Read size offset) s = .next (s.record (readEvent s.block.rf Config.rfLen offset size)) :=
  atBoundary_of_admits hw

theorem exec_bar0Write {size : Size} {s : State} (offset wdata : Word64)
    (hw : Bar.admits s.params.bar0Widths .bar0 size = true) :
    exec (.bar0Write size offset wdata) s = .next (bar0WriteResult size offset wdata s) :=
  atBoundary_of_admits hw

theorem exec_bar1Read (size : Size) (offset : Word64) (s : State) :
    exec (.bar1Read size offset) s = .next (s.record (readEvent s.block.input Config.inLen offset size)) :=
  atBoundary_of_admits (Bar.admits_bar1 ..)

theorem exec_bar1Write (size : Size) (offset wdata : Word64) (s : State) :
    exec (.bar1Write size offset wdata) s = .next (bar1WriteResult size offset wdata s) :=
  atBoundary_of_admits (Bar.admits_bar1 ..)

theorem exec_bar2Read (size : Size) (offset : Word64) (s : State) :
    exec (.bar2Read size offset) s = .next (s.record (readEvent s.block.output Config.outLen offset size)) :=
  atBoundary_of_admits (Bar.admits_bar2 ..)

theorem exec_bar2Write (size : Size) (offset wdata : Word64) (s : State) :
    exec (.bar2Write size offset wdata) s = .next (s.record (bar2WriteEvent s.params)) :=
  atBoundary_of_admits (Bar.admits_bar2 ..)

/-- The widths that BAR0_WIDTHS keeps out of BAR0: 8 always, and all but 4 under `{4}` (R8, R55). -/
theorem Bar.admits_bar0_iff (ws : Bar0Widths) (size : Size) :
    Bar.admits ws .bar0 size = true ↔ ¬ (size = .b8 ∨ (ws = .only4 ∧ size ≠ .b4)) := by
  cases ws <;> cases size <;> decide

/-! ### Writes out of range and in range -/

theorem bar0WriteResult_of_outOfRange {size : Size} {offset : Word64} (wdata : Word64) (s : State)
    (h : Config.rfLen < offset.toNat + size.bytes) :
    bar0WriteResult size offset wdata s = s.record (writeEvent .outOfRange) :=
  if_neg (by rw [inRange_iff]; omega)

theorem bar1WriteResult_of_outOfRange {size : Size} {offset : Word64} (wdata : Word64) (s : State)
    (h : Config.inLen < offset.toNat + size.bytes) :
    bar1WriteResult size offset wdata s = s.record (writeEvent .outOfRange) :=
  if_neg (by rw [inRange_iff]; omega)

theorem bar1WriteResult_of_inRange {size : Size} {offset : Word64} (wdata : Word64) (s : State)
    (h : offset.toNat + size.bytes ≤ Config.inLen) :
    bar1WriteResult size offset wdata s =
      (s.withBlock (s.block.withInput (s.block.input.store offset.toNat wdata size.bytes))).record
        (writeEvent .okWrite) :=
  if_pos ((inRange_iff ..).mpr h)

/-! ### Reads -/

/-- A transaction that only records an event, one that depends on the block alone, answers the same wherever the block
and the parameters are the same. -/
theorem atBoundary_record_next {bar : Bar} {size : Size} {s t : State} (event : Block → Event)
    (h : atBoundary bar size s (.next (s.record (event s.block))) = .next t) :
    ∃ e, t = s.record e ∧ ∀ s' : State, s'.params = s.params → s'.block = s.block →
      atBoundary bar size s' (.next (s'.record (event s'.block))) = .next (s'.record e) := by
  obtain ⟨hw, hrun⟩ := atBoundary_next h
  cases hrun
  refine ⟨_, rfl, fun s' hp hb => ?_⟩
  rw [atBoundary_of_admits (by rwa [hp]), hb]

/-- A read records an event that is a matter of the block and the parameters, and nothing more (R58). -/
theorem exec_read_next {i : Instr} {s t : State} (hi : IsRead i) (h : exec i s = .next t) :
    ∃ e, t = s.record e ∧ ∀ s' : State, s'.params = s.params → s'.block = s.block →
      exec i s' = .next (s'.record e) := by
  obtain ⟨size, offset, rfl | rfl | rfl⟩ := hi
  · exact atBoundary_record_next (fun b => readEvent b.rf Config.rfLen offset size) h
  · exact atBoundary_record_next (fun b => readEvent b.input Config.inLen offset size) h
  · exact atBoundary_record_next (fun b => readEvent b.output Config.outLen offset size) h

/-- A load within one register is a slice of its value (R13, R53). -/
theorem Block.load_rf_within (b : Block) (o k n : Nat) (h : k + n ≤ 4) :
    b.rf.load (o + k) n = ((b.read32 o).extractLsb' (8 * k) (8 * n)).setWidth 64 := by
  refine Memory.load_eq (by omega) fun i hi => ?_
  rw [BitVec.getLsbD_setWidth, BitVec.getLsbD_extractLsb', Block.getLsbD_read32]
  by_cases hin : i < 8 * n
  · have hdiv : (8 * k + i) / 8 = k + i / 8 := by omega
    have hmod : (8 * k + i) % 8 = i % 8 := by omega
    have hlt : 8 * k + i < 32 := by omega
    simp only [hi, hin, hlt, hdiv, hmod, Nat.add_assoc, decide_true, Bool.true_and]
  · simp only [hin, decide_false, Bool.false_and, Bool.and_false]

/-- A load is the load of its low bytes below the load of its high bytes (R53). -/
theorem Memory.load_add {m : Memory} {o n n' : Nat} {x : BitVec (8 * n)} {y : BitVec (8 * n')} (hn : n + n' ≤ 8)
    (hx : m.load o n = x.setWidth 64) (hy : m.load (o + n) n' = y.setWidth 64) :
    m.load o (n + n') = (y ++ x).setWidth 64 := by
  refine Memory.load_eq hn fun i hi => ?_
  rw [BitVec.getLsbD_setWidth, BitVec.getLsbD_append]
  by_cases hlow : i < 8 * n
  · have hbit := congrArg (fun v => v.getLsbD i) hx
    have hin : i < 8 * (n + n') := by omega
    simp only [m.getLsbD_load o n i (by omega), BitVec.getLsbD_setWidth, hlow, hi, decide_true, Bool.true_and] at hbit
    simp only [hi, hlow, hin, ← hbit, decide_true, Bool.true_and, if_true]
  · have hbit := congrArg (fun v => v.getLsbD (i - 8 * n)) hy
    have hsub : i - 8 * n < 64 := by omega
    have hdiv : o + n + (i - 8 * n) / 8 = o + i / 8 := by omega
    have hmod : (i - 8 * n) % 8 = i % 8 := by omega
    have hin : i - 8 * n < 8 * n' ↔ i < 8 * (n + n') := by omega
    simp only [m.getLsbD_load (o + n) n' _ (by omega), BitVec.getLsbD_setWidth, hsub, hdiv, hmod, hin, decide_true,
      Bool.true_and] at hbit
    simp only [hi, hlow, ← hbit, decide_true, Bool.true_and, if_false]

/-! ### The step and the requests after the one it takes -/

theorem step_of_decode_ok {s : State} {r : Request} {rest : List Request} {i : Instr} (hr : s.requests = r :: rest)
    (hd : decode s.params.bar0Widths (.transaction r) = .ok i) : step s = exec i { s with requests := rest } := by
  rw [step, State.fetch_cons hr]
  simp only [hd]

theorem step_of_decode_refuse {s : State} {r : Request} {rest : List Request} {reason : RejectReason}
    (hr : s.requests = r :: rest) (hd : decode s.params.bar0Widths (.transaction r) = .refuse reason) :
    step s = .refused (.boundary reason) := by
  rw [step, State.fetch_cons hr]
  simp only [hd]

/-- The outcome, with one more transaction delivered to the next state. -/
def deliverAfter (r : Request) : Host.Outcome State Fault Refusal → Host.Outcome State Fault Refusal
  | .next t => .next (t.deliver r)
  | .fault f => .fault f
  | .refused e => .refused e

theorem atBoundary_deliver {bar : Bar} {size : Size} {s : State} {r : Request}
    {run run' : Host.Outcome State Fault Refusal} (h : run' = deliverAfter r run) :
    atBoundary bar size (s.deliver r) run' = deliverAfter r (atBoundary bar size s run) := by
  unfold atBoundary
  rw [State.deliver_params, apply_ite (deliverAfter r), h]
  rfl

theorem bar0WriteResult_deliver (size : Size) (offset wdata : Word64) (s : State) (r : Request) :
    bar0WriteResult size offset wdata (s.deliver r) = (bar0WriteResult size offset wdata s).deliver r := by
  unfold bar0WriteResult
  rw [apply_ite (State.deliver · r), apply_ite (State.deliver · r)]
  rfl

theorem bar1WriteResult_deliver (size : Size) (offset wdata : Word64) (s : State) (r : Request) :
    bar1WriteResult size offset wdata (s.deliver r) = (bar1WriteResult size offset wdata s).deliver r := by
  unfold bar1WriteResult
  rw [apply_ite (State.deliver · r)]
  rfl

/-- No instruction looks at the requests that wait (R61). -/
theorem exec_deliver (i : Instr) (s : State) (r : Request) : exec i (s.deliver r) = deliverAfter r (exec i s) := by
  cases i with
  | bar0Read size offset => exact atBoundary_deliver rfl
  | bar0Write size offset wdata =>
    exact atBoundary_deliver (congrArg Host.Outcome.next (bar0WriteResult_deliver size offset wdata s r))
  | bar1Read size offset => exact atBoundary_deliver rfl
  | bar1Write size offset wdata =>
    exact atBoundary_deliver (congrArg Host.Outcome.next (bar1WriteResult_deliver size offset wdata s r))
  | bar2Read size offset => exact atBoundary_deliver rfl
  | bar2Write size offset wdata => exact atBoundary_deliver rfl
  | cmdReset => rfl
  | cmdStart => rfl
  | cmdStop => rfl
  | cmdNone => rfl

/-- A step that has a request to take sees none of those delivered after it (R61). -/
theorem step_deliver {s : State} (r : Request) (hs : s.requests ≠ []) :
    step (s.deliver r) = deliverAfter r (step s) := by
  obtain ⟨r₀, rest, hr⟩ := List.exists_cons_of_ne_nil hs
  have hr' : (s.deliver r).requests = r₀ :: (rest ++ [r]) := by rw [State.deliver_requests, hr, List.cons_append]
  cases hd : decode s.params.bar0Widths (.transaction r₀) with
  | refuse reason => rw [step_of_decode_refuse hr hd, step_of_decode_refuse hr' hd]; rfl
  | ok i => rw [step_of_decode_ok hr hd, step_of_decode_ok hr' hd]; exact exec_deliver i { s with requests := rest } r

/-! ### Idempotency -/

/-- A second store of the same bytes changes nothing more. -/
theorem Memory.read_store_store (m : Memory) (o : Nat) (v : Word64) (n x : Nat) :
    ((m.store o v n).store o v n).read x = (m.store o v n).read x := by
  rw [Memory.read_store, Memory.read_store, ite_eq_right_iff.mpr]
  exact fun hx => (if_pos hx).symm

/-- What a BAR1 write leaves of the block (R123). -/
theorem exec_bar1Write_block {size : Size} {offset wdata : Word64} {s t : State}
    (h : exec (.bar1Write size offset wdata) s = .next t) :
    t.block = if inRange offset size Config.inLen then
      s.block.withInput (s.block.input.store offset.toNat wdata size.bytes) else s.block := by
  rw [exec_bar1Write] at h
  cases h
  obtain ⟨hr, h⟩ | ⟨hr, h⟩ := bar1WriteResult_cases size offset wdata s <;> rw [h, hr] <;> rfl

/-- What a BAR0 write leaves of the block (R103, R104, R105). -/
theorem exec_bar0Write_block {size : Size} {offset wdata : Word64} {s t : State}
    (h : exec (.bar0Write size offset wdata) s = .next t) :
    t.block = if Accepted size offset then (s.block.mergeRf size offset wdata).hook s.params else s.block := by
  by_cases ha : Accepted size offset
  · rw [exec_bar0Write_of_accepted (atBoundary_next h).1 ha] at h
    cases h
    rw [if_pos ha]
    rfl
  · rw [if_neg ha]
    cases (atBoundary_next h).2
    obtain ⟨hr, ho, -⟩ | ⟨-, -, h⟩ | ⟨-, h⟩ := bar0WriteResult_cases size offset wdata s
    · exact absurd ((accepted_iff size offset).mpr ⟨hr, ho⟩) ha
    · rw [h]; rfl
    · rw [h]; rfl

/-- Of two rounds of assignments to the same two bits only the second counts (R13). -/
theorem setBit_pair_setBit_pair (v : Byte) (k k' : Nat) (a a' c c' : Bool) :
    setBit (setBit (setBit (setBit v k a) k' a') k c) k' c' = setBit (setBit v k c) k' c' := by
  ext j hj
  simp only [getElem_setBit]
  by_cases hk' : j = k'
  · simp only [if_pos hk']
  · by_cases hk : j = k
    · simp only [if_neg hk', if_pos hk]
    · simp only [if_neg hk', if_neg hk]

/-- What a command makes of byte `x` of the register file, where `v` stood (R143, R146, R149). -/
def commandByte (c : Command) (x : Nat) (v : Byte) : Byte :=
  match c with
  | .reset => 0#8
  | .start =>
    if x = 0 then setBit (setBit v 1 false) 0 false
    else if x = 12 then setBit (setBit v 0 false) 1 true
    else v
  | .stop =>
    if x = 0 then setBit (setBit v 0 false) 1 false
    else if x = 12 then setBit (setBit v 0 false) 1 false
    else v
  | .none => v

theorem Block.read_runCommand (p : Params) (b : Block) (c : Command) (x : Nat) :
    (b.runCommand p c).rf.read x = commandByte c x (b.rf.read x) := by
  cases c with
  | reset => rfl
  | start =>
    rw [Block.runCommand, Block.read_startTransition, commandByte]
    by_cases h0 : x = 0
    · rw [if_pos h0, if_pos h0, h0]
    · by_cases h12 : x = 12
      · rw [if_neg h0, if_neg h0, if_pos h12, if_pos h12, h12, setBit_pair_setBit_pair]
      · rw [if_neg h0, if_neg h0, if_neg h12, if_neg h12]
  | stop =>
    rw [Block.runCommand, Block.read_stopTransition, commandByte]
    by_cases h0 : x = 0
    · rw [if_pos h0, if_pos h0, h0]
    · by_cases h12 : x = 12
      · rw [if_neg h0, if_neg h0, if_pos h12, if_pos h12, h12]
      · rw [if_neg h0, if_neg h0, if_neg h12, if_neg h12]
  | none => rfl

/-- A command assigns zero to a byte, or fixed values to two of its bits, or nothing. -/
theorem commandByte_commandByte (c : Command) (x : Nat) (v : Byte) :
    commandByte c x (commandByte c x v) = commandByte c x v := by
  cases c with
  | reset => rfl
  | start =>
    by_cases h0 : x = 0
    · simp only [commandByte, if_pos h0, setBit_pair_setBit_pair]
    · by_cases h12 : x = 12
      · simp only [commandByte, if_neg h0, if_pos h12, setBit_pair_setBit_pair]
      · simp only [commandByte, if_neg h0, if_neg h12]
  | stop =>
    by_cases h0 : x = 0
    · simp only [commandByte, if_pos h0, setBit_pair_setBit_pair]
    · by_cases h12 : x = 12
      · simp only [commandByte, if_neg h0, if_pos h12, setBit_pair_setBit_pair]
      · simp only [commandByte, if_neg h0, if_neg h12]
  | none => rfl

/-- A write that does not cover byte 0x00 leaves the command bits as they were (R22). -/
theorem Block.commandBits_mergeRf_of_pos (b : Block) (size : Size) {offset : Word64} (wdata : Word64)
    (ho : 0 < offset.toNat) : (b.mergeRf size offset wdata).commandBits = b.commandBits := by
  rw [Block.commandBits_eq, Block.commandBits_eq, Block.read_mergeRf, if_neg (by omega)]

/-- A write that covers byte 0x00 sets the command bits, whatever they were (R22). -/
theorem Block.commandBits_mergeRf_of_zero (b c : Block) (size : Size) {offset : Word64} (wdata : Word64)
    (ho : offset.toNat = 0) :
    (b.mergeRf size offset wdata).commandBits = (c.mergeRf size offset wdata).commandBits := by
  have hcover : offset.toNat ≤ 0 ∧ 0 < offset.toNat + size.bytes := by have := size.bytes_pos; omega
  rw [Block.commandBits_eq, Block.commandBits_eq, Block.read_mergeRf, Block.read_mergeRf, if_pos hcover, if_pos hcover]

/-- The same write leaves the same command bits the second time, after the hook has cleared them (R33). -/
theorem Block.commandBits_mergeRf_hook (p : Params) {b : Block} (hb : b.commandBits = 0#3) (size : Size)
    (offset wdata : Word64) :
    (((b.mergeRf size offset wdata).hook p).mergeRf size offset wdata).commandBits =
      (b.mergeRf size offset wdata).commandBits := by
  obtain ho | ho := Nat.eq_zero_or_pos offset.toNat
  · exact Block.commandBits_mergeRf_of_zero _ _ size wdata ho
  · rw [Block.commandBits_mergeRf_of_pos _ size wdata ho,
      Block.hook_of_commandBits p ((b.commandBits_mergeRf_of_pos size wdata ho).trans hb)]

theorem selects_iff (b : Block) (c : Command) : Selects b c ↔ c = decodeCommand b.commandBits := by
  refine ⟨fun h => ?_, fun h => h ▸ selects_decodeCommand b⟩
  rw [decodeCommand, b.getLsbD_commandBits (by decide), b.getLsbD_commandBits (by decide),
    b.getLsbD_commandBits (by decide)]
  obtain ⟨h2, rfl⟩ | ⟨h2, h0, rfl⟩ | ⟨h2, h0, h1, rfl⟩ | ⟨h2, h0, h1, rfl⟩ := h
  · rw [h2]; rfl
  · rw [h2, h0]; rfl
  · rw [h2, h0, h1]; rfl
  · rw [h2, h0, h1]; rfl

theorem runs_bar0Write_iff (size : Size) (offset wdata : Word64) (s : State) (c : Command) :
    Runs (.bar0Write size offset wdata) s c ↔
      Accepted size offset ∧ Selects (s.block.mergeRf size offset wdata) c := by
  refine ⟨?_, fun ⟨ha, hsel⟩ => .inr ⟨size, offset, wdata, rfl, ha, hsel⟩⟩
  rintro (h | ⟨_, _, _, h, ha, hsel⟩)
  · cases c <;> cases h
  · cases h
    exact ⟨ha, hsel⟩

/-- A BAR0 write merges its bytes and then runs the command that `Runs` names (R105). -/
theorem exec_bar0Write_block_of_runs {size : Size} {offset wdata : Word64} {s t : State} {c : Command}
    (h : exec (.bar0Write size offset wdata) s = .next t) (hruns : Runs (.bar0Write size offset wdata) s c) :
    t.block = (s.block.mergeRf size offset wdata).runCommand s.params c := by
  obtain ⟨ha, hsel⟩ := (runs_bar0Write_iff ..).mp hruns
  rw [exec_bar0Write_block h, if_pos ha, Block.hook, (selects_iff ..).mp hsel]

/-- Between transactions a BAR0 write that is made again runs the same command again. -/
theorem runs_bar0Write_again {size : Size} {offset wdata : Word64} {s t : State} {c : Command} (hs : s.Inv)
    (h : exec (.bar0Write size offset wdata) s = .next t) (hruns : Runs (.bar0Write size offset wdata) s c) :
    Runs (.bar0Write size offset wdata) t c := by
  obtain ⟨-, hcmd, -⟩ := hs
  rw [runs_bar0Write_iff, selects_iff] at hruns ⊢
  obtain ⟨ha, hsel⟩ := hruns
  refine ⟨ha, ?_⟩
  rw [exec_bar0Write_block h, if_pos ha, Block.commandBits_mergeRf_hook s.params hcmd, ← hsel]

/-- The register file after the same bytes are merged and the same command runs again: a byte that the write covers
starts from the byte written both times, and of any other the command makes nothing more. -/
theorem Block.read_runCommand_mergeRf_again (p : Params) (b : Block) (c : Command) (size : Size)
    (offset wdata : Word64) (x : Nat) :
    ((((b.mergeRf size offset wdata).runCommand p c).mergeRf size offset wdata).runCommand p c).rf.read x =
      ((b.mergeRf size offset wdata).runCommand p c).rf.read x := by
  rw [Block.read_runCommand, Block.read_mergeRf, Block.read_runCommand, Block.read_mergeRf]
  by_cases hx : offset.toNat ≤ x ∧ x < offset.toNat + size.bytes
  · rw [if_pos hx, if_pos hx]
  · rw [if_neg hx, if_neg hx, commandByte_commandByte]

/-- A command finds nothing left to do in `input` the second time. -/
theorem Block.input_runCommand_again (p : Params) {b b' : Block} (c : Command)
    (h : b'.input = (b.runCommand p c).input) : (b'.runCommand p c).input = (b.runCommand p c).input := by
  cases c with
  | reset => rfl
  | start => simp only [Block.runCommand, Block.startTransition_input]
  | stop => exact h
  | none => exact h

/-- Nor in `output`, unless it is START, which runs COMPUTE each time (R146). -/
theorem Block.output_runCommand_again (p : Params) {b b' : Block} {c : Command} (hc : c ≠ .start)
    (h : b'.output = (b.runCommand p c).output) : (b'.runCommand p c).output = (b.runCommand p c).output := by
  cases c with
  | reset => rfl
  | start => exact absurd rfl hc
  | stop => exact h
  | none => exact h

/-- A START write leaves COMPUTE's result in `output`, and `input` cleared (R146). -/
theorem exec_bar0Write_start {size : Size} {offset wdata : Word64} {s t : State}
    (h : exec (.bar0Write size offset wdata) s = .next t) (hruns : Runs (.bar0Write size offset wdata) s .start) :
    t.block.input = Memory.zeros ∧
      ∀ x : Fin 4096, t.block.output.read x.val = runCompute s.params s.block.input.bytes x := by
  rw [exec_bar0Write_block_of_runs h hruns, Block.runCommand]
  refine ⟨rfl, fun x => ?_⟩
  rw [Block.startTransition_output, Memory.read_ofBytes, dif_pos x.isLt, Block.mergeRf_input]

/-- A second START write computes on the cleared `input` (R59, R146). -/
theorem exec_bar0Write_start_again {size : Size} {offset wdata : Word64} {s t u : State} (hs : s.Inv)
    (h : exec (.bar0Write size offset wdata) s = .next t) (h' : exec (.bar0Write size offset wdata) t = .next u)
    (hruns : Runs (.bar0Write size offset wdata) s .start) (x : Fin 4096) :
    u.block.output.read x.val = runCompute s.params (fun _ => 0x00#8) x := by
  obtain ⟨hin, -⟩ := exec_bar0Write_start h hruns
  obtain ⟨-, hout⟩ := exec_bar0Write_start h' (runs_bar0Write_again hs h hruns)
  rw [hout x, hin, (exec_params_requests h).1]
  rfl

/-- Every BAR0 write but a START write leaves all bytes as they are the second time, and a START write all but
`output` (R59). -/
theorem exec_bar0Write_again {size : Size} {offset wdata : Word64} {s t u : State} (hs : s.Inv)
    (h : exec (.bar0Write size offset wdata) s = .next t) (h' : exec (.bar0Write size offset wdata) t = .next u) :
    SameBytes t.block.rf u.block.rf ∧ SameBytes t.block.input u.block.input ∧
      (¬ Runs (.bar0Write size offset wdata) s .start → SameBytes t.block.output u.block.output) := by
  by_cases ha : Accepted size offset
  · have hruns := (runs_bar0Write_iff size offset wdata s _).mpr ⟨ha, selects_decodeCommand _⟩
    generalize decodeCommand (s.block.mergeRf size offset wdata).commandBits = c at hruns
    have ht := exec_bar0Write_block_of_runs h hruns
    have hu := exec_bar0Write_block_of_runs h' (runs_bar0Write_again hs h hruns)
    rw [(exec_params_requests h).1, ht] at hu
    rw [hu, ht]
    refine ⟨Block.read_runCommand_mergeRf_again s.params s.block c size offset wdata,
      fun x => ?_, fun hstart x => ?_⟩
    · rw [Block.input_runCommand_again s.params c (Block.mergeRf_input ..)]
    · rw [Block.output_runCommand_again s.params (fun hc => hstart (hc ▸ hruns)) (Block.mergeRf_output ..)]
  · have ht := exec_bar0Write_block h
    have hu := exec_bar0Write_block h'
    rw [if_neg ha] at ht hu
    rw [hu, ht]
    exact ⟨fun _ => rfl, fun _ => rfl, fun _ _ => rfl⟩

/-- Under the identity strategy a START write moves a byte of `input` to `output`, and a second one clears it (R59). -/
theorem exec_bar0Write_start_identity {size : Size} {offset wdata : Word64} {s : State} {x : Nat} (hs : s.Inv)
    (hw : Bar.admits s.params.bar0Widths .bar0 size = true) (hruns : Runs (.bar0Write size offset wdata) s .start)
    (hid : s.params.strategy = .identity) (hx : x < 4096) :
    ∃ t u, exec (.bar0Write size offset wdata) s = .next t ∧ exec (.bar0Write size offset wdata) t = .next u ∧
      t.block.output.read x = s.block.input.read x ∧ u.block.output.read x = 0x00#8 := by
  have hcompute (y : WindowBytes) : runCompute s.params y = y := by simp only [runCompute, hid]
  have ht := exec_bar0Write offset wdata hw
  have hw' : Bar.admits (bar0WriteResult size offset wdata s).params.bar0Widths .bar0 size = true := by
    rwa [(exec_params_requests ht).1]
  have hu := exec_bar0Write offset wdata hw'
  refine ⟨_, _, ht, hu, ?_, ?_⟩
  · obtain ⟨-, hout⟩ := exec_bar0Write_start ht hruns
    rw [hout ⟨x, hx⟩, hcompute]
    rfl
  · rw [exec_bar0Write_start_again hs ht hu hruns ⟨x, hx⟩, hcompute]

/-- A BAR1 write leaves all bytes as they are the second time (R59). -/
theorem exec_bar1Write_again {size : Size} {offset wdata : Word64} {s t u : State}
    (h : exec (.bar1Write size offset wdata) s = .next t) (h' : exec (.bar1Write size offset wdata) t = .next u) :
    SameBytes t.block.input u.block.input ∧ u.block.rf = t.block.rf ∧ u.block.output = t.block.output := by
  have ht := exec_bar1Write_block h
  have hu := exec_bar1Write_block h'
  by_cases hr : inRange offset size Config.inLen = true
  · rw [if_pos hr] at ht hu
    rw [hu, ht]
    exact ⟨s.block.input.read_store_store offset.toNat wdata size.bytes, rfl, rfl⟩
  · rw [if_neg hr] at ht hu
    rw [hu]
    exact ⟨fun _ => rfl, rfl, rfl⟩

/-- A machine under the identity strategy with a byte of `input` that is not zero. -/
def identityState : State :=
  { State.reset with
    params := { Params.default with strategy := .identity }
    block := Block.zero.withInput [(0, 0x5A#8)] }

theorem identityState_inv : identityState.Inv := by decide

end Sys2Proof.Machine

namespace Sys2Proof.Proofs

open Sys2Proof.Machine Sys2Proof.Claims

/-- Settles O15: the oldest request is the same with one more delivered, and `exec` leaves the others alone. -/
theorem noLookAhead : Obligations.NoLookAhead := by
  intro s r hs
  rw [step_deliver r hs]
  exact ⟨fun t h => by rw [h]; rfl, fun e h => by rw [h]; rfl⟩

/-- Settles O19: a read only records its event. -/
theorem readsFrame : Obligations.ReadsFrame := by
  intro i s t hi h
  obtain ⟨e, rfl, -⟩ := exec_read_next hi h
  exact ⟨rfl, rfl, rfl, e, rfl⟩

/-- Settles O20: each load is a slice of one register, or the slices of two neighbours put together. -/
theorem mixedWidthReads : Obligations.MixedWidthReads := by
  intro s
  have hcontrol : s.block.rf.load 0x00 1 = (s.block.control.extractLsb' 0 8).setWidth 64 :=
    s.block.load_rf_within controlOffset 0 1 (by decide)
  have hstatus : s.block.rf.load 0x0C 2 = (s.block.status.extractLsb' 0 16).setWidth 64 :=
    s.block.load_rf_within statusOffset 0 2 (by decide)
  have hlow : s.block.rf.load 0x02 4 =
      (s.block.controlW1s.extractLsb' 0 16 ++ s.block.control.extractLsb' 16 16).setWidth 64 :=
    Memory.load_add (by decide) (s.block.load_rf_within controlOffset 2 2 (by decide))
      (s.block.load_rf_within controlW1sOffset 0 2 (by decide))
  have hhigh : s.block.rf.load 0x0A 4 =
      (s.block.status.extractLsb' 0 16 ++ s.block.controlW1c.extractLsb' 16 16).setWidth 64 :=
    Memory.load_add (by decide) (s.block.load_rf_within controlW1cOffset 2 2 (by decide)) hstatus
  rw [← hcontrol, ← hstatus, ← hlow, ← hhigh]
  exact ⟨fun hw => exec_bar0Read_of_inRange hw (by decide), fun hw => exec_bar0Read_of_inRange hw (by decide),
    fun hw => ⟨exec_bar0Read_of_inRange hw (by decide), exec_bar0Read_of_inRange hw (by decide)⟩⟩

/-- Settles O22: each transaction decides by the natural-number sum alone whether it answers the sentinel or drops. -/
theorem outOfRangeRejected : Obligations.OutOfRangeRejected := by
  intro s size offset wdata
  refine ⟨fun h => ⟨?_, ?_, ?_⟩, fun h hw => ⟨?_, ?_⟩, fun h =>
    ⟨⟨s.block.input.load offset.toNat size.bytes, ?_⟩, ⟨s.block.output.load offset.toNat size.bytes, ?_⟩,
      ⟨s.block.withInput (s.block.input.store offset.toNat wdata size.bytes), ?_⟩⟩,
    fun h hw => ⟨_, exec_bar0Read_of_inRange hw h⟩, by decide⟩
  · rw [exec_bar1Read, readEvent_of_outOfRange h]
  · rw [exec_bar2Read, readEvent_of_outOfRange h]
  · rw [exec_bar1Write, bar1WriteResult_of_outOfRange wdata s h]; rfl
  · rw [exec_bar0Read offset hw, readEvent_of_outOfRange h]
  · rw [exec_bar0Write offset wdata hw, bar0WriteResult_of_outOfRange wdata s h]; rfl
  · rw [exec_bar1Read, readEvent_of_inRange h]
  · rw [exec_bar2Read, readEvent_of_inRange h]
  · rw [exec_bar1Write, bar1WriteResult_of_inRange wdata s h]; rfl

/-- Settles O23: the boundary check is the only one that refuses, and only BAR0 keeps a width out. -/
theorem widthAdmission : Obligations.WidthAdmission := by
  intro s size offset wdata
  refine ⟨fun h => ?_, fun h => ?_, ⟨_, exec_bar1Read size offset s⟩, ⟨_, exec_bar1Write size offset wdata s⟩,
    ⟨_, exec_bar2Read size offset s⟩, ⟨_, exec_bar2Write size offset wdata s⟩⟩
  · have hw : Bar.admits s.params.bar0Widths .bar0 size = false :=
      Bool.eq_false_iff.mpr fun hw => (Bar.admits_bar0_iff ..).mp hw h
    exact ⟨atBoundary_of_not_admits hw, atBoundary_of_not_admits hw⟩
  · have hw := (Bar.admits_bar0_iff s.params.bar0Widths size).mpr h
    exact ⟨⟨_, exec_bar0Read offset hw⟩, ⟨_, exec_bar0Write offset wdata hw⟩⟩

/-- Settles O48: a transaction made again finds its own bytes already in place and runs the same command again, which
changes nothing more unless it is START. -/
theorem idempotency : Obligations.Idempotency := by
  refine ⟨fun i s t hi h => ?_, fun s t u size offset wdata h h' => exec_bar1Write_again h h',
    fun s t u size offset wdata hs h h' => ?_,
    fun s size offset wdata x hs hw hruns hid hx _ => exec_bar0Write_start_identity hs hw hruns hid hx, ?_⟩
  · obtain ⟨e, rfl, hread⟩ := exec_read_next hi h
    exact ⟨e, rfl, hread _ rfl rfl⟩
  · obtain ⟨hrf, hin, hout⟩ := exec_bar0Write_again hs h h'
    exact ⟨hrf, hin, hout, exec_bar0Write_start_again hs h h'⟩
  · have hruns : Runs (.bar0Write .b4 0 1) identityState .start :=
      (runs_bar0Write_iff ..).mpr ⟨by decide, by decide⟩
    obtain ⟨t, u, ht, hu, hfirst, hsecond⟩ :=
      exec_bar0Write_start_identity identityState_inv (by decide) hruns rfl (by decide : 0 < 4096)
    refine ⟨identityState, t, u, .b4, 0, 1, identityState_inv, hruns, ht, hu, fun hsame => ?_⟩
    exact absurd (hfirst.symm.trans ((hsame 0).symm.trans hsecond)) (by decide)

/-- Settles O9: with a request to take, the step is `exec` of what it decodes to. -/
theorem stepRunsDecoded : Obligations.StepRunsDecoded := fun _ _ _ _ hr hd => step_of_decode_ok hr hd

end Sys2Proof.Proofs

/-! The statements of the encoding family. A descriptor with its reserved bits clear and a window named is `descriptorOf` of
its own fields (`exists_eq_descriptorOf`), so the decoder's answer is said once, for the descriptors that are built
(`decode_descriptorOf`), and each statement about a request comes down to it. -/

namespace Sys2Proof

/-! ### The fields of a descriptor -/

theorem Size.code_ofCode (sz : BitVec 2) : (Size.ofCode sz).code = sz := by revert sz; decide

/-- Only the code 3 names no window (R81). -/
theorem Bar.exists_code_eq {c : BitVec 2} (h : c ≠ 3#2) : ∃ bar : Bar, bar.code = c := by
  have hc : c = 0#2 ∨ c = 1#2 ∨ c = 2#2 := by revert c; decide
  obtain rfl | rfl | rfl := hc
  · exact ⟨.bar0, rfl⟩
  · exact ⟨.bar1, rfl⟩
  · exact ⟨.bar2, rfl⟩

theorem Dir.exists_bit_eq (b : BitVec 1) : ∃ dir : Dir, dir.bit = b := by
  obtain rfl | rfl := BitVec.eq_zero_or_eq_one b
  · exact ⟨.read, rfl⟩
  · exact ⟨.write, rfl⟩

/-- The bit `wr` of a descriptor that is built. -/
theorem descriptorOf_dir (bar : Bar) (dir : Dir) (size : Size) :
    (descriptorOf bar dir size).extractLsb' 2 1 = dir.bit := by
  cases bar <;> cases dir <;> cases size <;> decide

theorem descriptorOf_getLsbD_wr (bar : Bar) (dir : Dir) (size : Size) :
    (descriptorOf bar dir size).getLsbD 2 = decide (dir = .write) := by
  cases bar <;> cases dir <;> cases size <;> decide

/-- The bits 2:0 of a descriptor that is built name its kind (R84). -/
theorem descriptorOf_kind (bar : Bar) (dir : Dir) (size : Size) :
    (descriptorOf bar dir size).extractLsb' 0 3 = dir.bit ++ bar.code := by
  cases bar <;> cases dir <;> cases size <;> decide

theorem append_descriptor_fields (d : BitVec 8) :
    d.extractLsb' 5 3 ++ d.extractLsb' 3 2 ++ d.extractLsb' 2 1 ++ d.extractLsb' 0 2 = d := by
  revert d; decide

/-- The four fields determine the descriptor (R81). -/
theorem eq_descriptorOf_of_fields {d : BitVec 8} {bar : Bar} {dir : Dir} {size : Size}
    (hreserved : d.extractLsb' 5 3 = 0#3) (hsz : d.extractLsb' 3 2 = size.code) (hwr : d.extractLsb' 2 1 = dir.bit)
    (hbar : d.extractLsb' 0 2 = bar.code) : d = descriptorOf bar dir size := by
  rw [← append_descriptor_fields d, hreserved, hsz, hwr, hbar, descriptorOf]

theorem exists_eq_descriptorOf {d : BitVec 8} (hreserved : d.extractLsb' 5 3 = 0#3) (hbar : d.extractLsb' 0 2 ≠ 3#2) :
    ∃ bar dir size, d = descriptorOf bar dir size := by
  obtain ⟨bar, hbar⟩ := Bar.exists_code_eq hbar
  obtain ⟨dir, hdir⟩ := Dir.exists_bit_eq (d.extractLsb' 2 1)
  exact ⟨bar, dir, _, eq_descriptorOf_of_fields hreserved (Size.code_ofCode _).symm hdir.symm hbar.symm⟩

/-- The mask `0xE7` of the table leaves out only the width, so a row's match value, which is its descriptor of width 1, and
a width determine the descriptor (R84). -/
theorem eq_descriptorOf_of_mask {d : BitVec 8} {bar : Bar} {dir : Dir} {size : Size}
    (hmask : d &&& 0xE7#8 = descriptorOf bar dir .b1) (hsz : d.extractLsb' 3 2 = size.code) :
    d = descriptorOf bar dir size := by
  have hfield (k n : Nat) (hones : (0xE7#8).extractLsb' k n = BitVec.allOnes n) :
      d.extractLsb' k n = (descriptorOf bar dir .b1).extractLsb' k n := by
    rw [← hmask, BitVec.extractLsb'_and, hones, BitVec.and_allOnes]
  refine eq_descriptorOf_of_fields ?_ hsz ?_ ?_
  · rw [hfield 5 3 (by decide), descriptorOf_reserved]
  · rw [hfield 2 1 (by decide), descriptorOf_dir]
  · rw [hfield 0 2 (by decide), descriptorOf_bar]

/-! ### The decoder's answer -/

theorem decode_of_reserved (ws : Bar0Widths) {r : Request} (h : r.descriptor.extractLsb' 5 3 ≠ 0#3) :
    decode ws (.transaction r) = .refuse .reservedBits := by
  rw [decode_transaction, if_neg h]

theorem decode_of_noWindow (ws : Bar0Widths) {r : Request} (hreserved : r.descriptor.extractLsb' 5 3 = 0#3)
    (hbar : r.descriptor.extractLsb' 0 2 = 3#2) : decode ws (.transaction r) = .refuse .noWindow := by
  rw [decode_transaction, if_pos hreserved, hbar]
  rfl

/-- A descriptor that is built decodes to what it was built from, if its window admits its width (R92). -/
theorem decode_descriptorOf (ws : Bar0Widths) {r : Request} {bar : Bar} {dir : Dir} {size : Size}
    (hd : r.descriptor = descriptorOf bar dir size) :
    decode ws (.transaction r) =
      if bar.admits ws size then .ok (Instr.ofTransaction bar dir size r.offset r.wdata)
      else .refuse .widthNotAdmitted := by
  rw [decode_transaction, hd, if_pos (descriptorOf_reserved ..), descriptorOf_bar, descriptorOf_sz, descriptorOf_wr,
    Bar.ofCode_code, Size.ofCode_code]

theorem decode_descriptorOf_of_admits {ws : Bar0Widths} {r : Request} {bar : Bar} {dir : Dir} {size : Size}
    (hd : r.descriptor = descriptorOf bar dir size) (hw : bar.admits ws size = true) :
    decode ws (.transaction r) = .ok (Instr.ofTransaction bar dir size r.offset r.wdata) := by
  rw [decode_descriptorOf ws hd, if_pos hw]

theorem decode_descriptorOf_of_not_admits {ws : Bar0Widths} {r : Request} {bar : Bar} {dir : Dir} {size : Size}
    (hd : r.descriptor = descriptorOf bar dir size) (hw : ¬ bar.admits ws size = true) :
    decode ws (.transaction r) = .refuse .widthNotAdmitted := by
  rw [decode_descriptorOf ws hd, if_neg hw]

/-- Everything that a request can decode to: the transaction that its descriptor was built from. -/
theorem decode_transaction_eq_ok {ws : Bar0Widths} {r : Request} {i : Instr} (h : decode ws (.transaction r) = .ok i) :
    ∃ bar dir size, r.descriptor = descriptorOf bar dir size ∧ bar.admits ws size = true ∧
      i = Instr.ofTransaction bar dir size r.offset r.wdata := by
  by_cases hreserved : r.descriptor.extractLsb' 5 3 = 0#3
  · by_cases hbar : r.descriptor.extractLsb' 0 2 = 3#2
    · rw [decode_of_noWindow ws hreserved hbar] at h
      cases h
    · obtain ⟨bar, dir, size, hd⟩ := exists_eq_descriptorOf hreserved hbar
      rw [decode_descriptorOf ws hd] at h
      split at h
      next hw => cases h; exact ⟨bar, dir, size, hd, hw, rfl⟩
      next => cases h
  · rw [decode_of_reserved ws hreserved] at h
    cases h

/-- What the encoder makes of a transaction decodes to it. -/
theorem decode_requestOf {ws : Bar0Widths} {bar : Bar} {size : Size} (hw : bar.admits ws size = true) (dir : Dir)
    (offset wdata : Word64) :
    decode ws (requestOf bar dir size offset wdata) = .ok (Instr.ofTransaction bar dir size offset wdata) :=
  decode_descriptorOf_of_admits rfl hw

/-- The widths that a window keeps out, over the codes of R81 and R82 (R8, R55). -/
theorem Bar.admits_iff_codes (ws : Bar0Widths) (bar : Bar) (size : Size) :
    bar.admits ws size = true ↔ ¬ (bar.code = 0#2 ∧ (size.code = 3#2 ∨ (ws = .only4 ∧ size.code ≠ 2#2))) := by
  cases bar with
  | bar0 => cases ws <;> cases size <;> decide
  | bar1 => exact iff_of_true (Bar.admits_bar1 ..) fun ⟨h, _⟩ => absurd h (by decide)
  | bar2 => exact iff_of_true (Bar.admits_bar2 ..) fun ⟨h, _⟩ => absurd h (by decide)

/-! ### The instructions that requests and command bits stand for -/

theorem Instr.wellFormed_ofTransaction (ws : Bar0Widths) (bar : Bar) (dir : Dir) (size : Size) (offset wdata : Word64) :
    (Instr.ofTransaction bar dir size offset wdata).wellFormed ws = bar.admits ws size := by
  cases bar <;> cases dir <;> rfl

/-- The encoder keeps the write data of a write only (log entry 9). -/
theorem encode_ofTransaction (bar : Bar) (dir : Dir) (size : Size) (offset wdata : Word64) :
    encode (Instr.ofTransaction bar dir size offset wdata) =
      requestOf bar dir size offset (if dir = .write then wdata else 0#64) := by
  cases bar <;> cases dir <;> rfl

theorem Command.instr_injective : Function.Injective Command.instr := by
  intro c c' h
  cases c <;> cases c' <;> cases h <;> rfl

theorem decode_command_eq_ok_iff (ws : Bar0Widths) (bits : BitVec 3) (c : Command) :
    decode ws (.command bits) = .ok c.instr ↔ decodeCommand bits = c := by
  rw [decode, Decoded.ok.injEq, Command.instr_injective.eq_iff]

theorem decode_encodeCommand (ws : Bar0Widths) (c : Command) : decode ws (.command (encodeCommand c)) = .ok c.instr := by
  cases c <;> rfl

/-- A table word of 8 bits is a descriptor with zero operands (log entry 7). -/
theorem Code.ofTableWord_eight (d : BitVec 8) : Code.ofTableWord 8 d.toNat = .transaction ⟨d, 0#64, 0#64⟩ := by
  have hd : d.toNat % 2 ^ 8 = d.toNat := Nat.mod_eq_of_lt d.isLt
  have hoffset : d.toNat / 2 ^ 8 = 0 := Nat.div_eq_of_lt d.isLt
  have hwdata : d.toNat / 2 ^ 72 = 0 := Nat.div_eq_of_lt (by omega)
  rw [Code.ofTableWord, if_neg (by decide), Request.ofBits, hd, hoffset, hwdata, BitVec.ofNat_toNat, BitVec.setWidth_eq]

end Sys2Proof

namespace Sys2Proof.Proofs

open Sys2Proof.Machine Sys2Proof.Claims

/-- Settles O4: a transaction's fields survive in its descriptor and its operands travel beside it; a command's one-bit word
selects it. -/
theorem decodeOfEncode : Obligations.DecodeOfEncode := by
  intro ws i hw
  cases i with
  | bar0Read size offset => exact decode_requestOf hw .read offset 0#64
  | bar0Write size offset wdata => exact decode_requestOf hw .write offset wdata
  | bar1Read size offset => exact decode_requestOf hw .read offset 0#64
  | bar1Write size offset wdata => exact decode_requestOf hw .write offset wdata
  | bar2Read size offset => exact decode_requestOf hw .read offset 0#64
  | bar2Write size offset wdata => exact decode_requestOf hw .write offset wdata
  | cmdReset => exact decode_encodeCommand ws .reset
  | cmdStart => exact decode_encodeCommand ws .start
  | cmdStop => exact decode_encodeCommand ws .stop
  | cmdNone => exact decode_encodeCommand ws .none

/-- Settles O5: a request that decodes has a built descriptor, which the encoder builds again. -/
theorem encodeOfDecode : Obligations.EncodeOfDecode := by
  intro ws r i h
  obtain ⟨bar, dir, size, hd, hw, rfl⟩ := decode_transaction_eq_ok h
  refine ⟨(Instr.wellFormed_ofTransaction ..).trans hw, ?_⟩
  simp only [encode_ofTransaction, requestOf, hd, descriptorOf_getLsbD_wr, decide_eq_true_eq]

/-- Settles O6: with no reserved bit and a window the descriptor is a built one, whose width decides. -/
theorem boundaryRefusals : Obligations.BoundaryRefusals := by
  intro ws r d wide
  have hwide {bar dir size} (hd : d = descriptorOf bar dir size) : bar.admits ws size = true ↔ ¬ wide := by
    simp only [wide, hd, descriptorOf_bar, descriptorOf_sz, Bar.admits_iff_codes]
  refine ⟨decode_of_reserved ws, decode_of_noWindow ws, fun hreserved h => ?_, fun hreserved hbar h => ?_⟩
  · have hbar : d.extractLsb' 0 2 ≠ 3#2 := by rw [h.1]; decide
    obtain ⟨bar, dir, size, hd⟩ := exists_eq_descriptorOf hreserved hbar
    exact decode_descriptorOf_of_not_admits hd fun hw => (hwide hd).mp hw h
  · obtain ⟨bar, dir, size, hd⟩ := exists_eq_descriptorOf hreserved hbar
    refine ⟨_, size, decode_descriptorOf_of_admits hd ((hwide hd).mpr h), by rw [hd, descriptorOf_sz], ?_⟩
    rw [hd, descriptorOf_kind]
    cases bar <;> cases dir <;> simp [Dir.bit, Bar.code, Instr.ofTransaction]

/-- Settles O7: a row's match value and a width determine the descriptor that is built from them. -/
theorem tableDescriptorsDecode : Obligations.TableDescriptorsDecode := by
  intro ws r size hsz
  have hbuilt (bar dir) (h : r.descriptor &&& 0xE7#8 = descriptorOf bar dir .b1) :
      r.descriptor = descriptorOf bar dir size := eq_descriptorOf_of_mask h hsz
  have hok (bar dir) (h : r.descriptor &&& 0xE7#8 = descriptorOf bar dir .b1) (hw : bar.admits ws size = true) :
      decode ws (.transaction r) = .ok (Instr.ofTransaction bar dir size r.offset r.wdata) :=
    decode_descriptorOf_of_admits (hbuilt bar dir h) hw
  refine ⟨hok .bar0 .read, hok .bar0 .write, fun h hw => ?_,
    fun h => hok .bar1 .read h (Bar.admits_bar1 ..), fun h => hok .bar1 .write h (Bar.admits_bar1 ..),
    fun h => hok .bar2 .read h (Bar.admits_bar2 ..), fun h => hok .bar2 .write h (Bar.admits_bar2 ..)⟩
  have hw : ¬ Bar.admits ws .bar0 size = true := Bool.eq_false_iff.mp hw
  obtain h | h := h
  · exact decode_descriptorOf_of_not_admits (hbuilt .bar0 .read h) hw
  · exact decode_descriptorOf_of_not_admits (hbuilt .bar0 .write h) hw

/-- Settles O8: both sides name the one command that the bits decode to. -/
theorem commandBitsDecode : Obligations.CommandBitsDecode := by
  intro ws b c
  rw [selects_iff, decode_command_eq_ok_iff, eq_comm]

/-- Settles O3: the decoder runs on each word. -/
theorem writtenOutWordsDecode : Obligations.WrittenOutWordsDecode := by
  unfold Obligations.WrittenOutWordsDecode
  decide

/-- Settles O11: the placed request is the oldest, and the step leaves the ones behind it to `exec`. -/
theorem placedWordRunsNext : Obligations.PlacedWordRunsNext := by
  intro s d i hd
  rw [State.withFetchWord, Code.ofTableWord_eight]
  exact step_of_decode_ok (State.placeFirst_requests s _) hd

end Sys2Proof.Proofs

/-! The statements of the BAR0 access family. What a read records is `ReadsWindow` for every window
(`readsWindow_readEvent`), and what a BAR0 write leaves of the block is the merge followed by the selected command
(`exec_bar0Write_block_of_selects`), or nothing. -/

namespace Sys2Proof.Machine

open Sys2Proof.Claims

/-! ### Reads -/

/-- Every read answers as the statements say, whatever the window (R56, R86). -/
theorem readsWindow_readEvent (m : Memory) (len : Nat) (offset : Word64) (size : Size) :
    ReadsWindow m len offset size (readEvent m len offset size) := by
  by_cases h : offset.toNat + size.bytes ≤ len
  · rw [readEvent_of_inRange h]
    exact ⟨_, rfl, fun _ => ⟨rfl, fun i _ => m.byteOf_load _ _ i size.bytes_le⟩, fun hout => absurd h (by omega)⟩
  · rw [readEvent_of_outOfRange (by omega)]
    exact ⟨_, rfl, fun hin => absurd hin h, fun _ => ⟨rfl, byteOf_ones size⟩⟩

/-- With the command bits clear, `control` is its bits 31:3 over three zeros (R22, R33). -/
theorem Block.control_eq_of_commandBits {b : Block} (h : b.commandBits = 0#3) :
    b.control = b.control.extractLsb' 3 29 ++ 0#3 := by
  have hsplit : b.control.extractLsb' 3 29 ++ b.control.extractLsb' 0 3 = b.control :=
    (BitVec.extractLsb'_append_extractLsb'_eq_extractLsb' rfl).trans BitVec.extractLsb'_eq_self
  rw [← h, Block.commandBits, hsplit]

/-- A BAR0 read where the same write's bytes have been merged returns those bytes (R106). -/
theorem exec_bar0Read_of_mergeRf {b : Block} {size : Size} {offset wdata : Word64} {t : State}
    (hw : Bar.admits t.params.bar0Widths .bar0 size = true) (hr : offset.toNat + size.bytes ≤ Config.rfLen)
    (ht : t.block = b.mergeRf size offset wdata) :
    exec (.bar0Read size offset) t = .next (t.record ⟨.okRead, .data (wdata &&& ones size.bytes)⟩) := by
  rw [exec_bar0Read_of_inRange hw hr, ht, Block.mergeRf, Block.withRf_rf, Memory.load_store]

/-! ### Which event a BAR0 write records -/

/-- A write that overlaps `status` is dropped as read-only (R104). -/
theorem bar0WriteResult_of_overlap {size : Size} {offset : Word64} (wdata : Word64) (s : State)
    (hr : offset.toNat + size.bytes ≤ Config.rfLen) (ho : offset.toNat < 0x10 ∧ 0x0C < offset.toNat + size.bytes) :
    bar0WriteResult size offset wdata s = s.record (writeEvent .readOnlyDrop) := by
  rw [bar0WriteResult, if_pos ((inRange_iff ..).mpr hr), if_pos ((overlapsStatus_iff ..).mpr ho)]

/-- A dropped write records another outcome, so that `okWrite` tells an accepted one (R104, R171). -/
theorem accepted_of_bar0WriteResult {size : Size} {offset wdata : Word64} {s : State} {b : Block}
    (h : bar0WriteResult size offset wdata s = (s.withBlock b).record (writeEvent .okWrite)) : Accepted size offset := by
  have hhist := congrArg State.history h
  obtain ⟨hr, ho, -⟩ | ⟨-, -, hdrop⟩ | ⟨-, hdrop⟩ := bar0WriteResult_cases size offset wdata s
  · exact (accepted_iff ..).mpr ⟨hr, ho⟩
  · simp [hdrop, writeEvent] at hhist
  · simp [hdrop, writeEvent] at hhist

theorem exec_bar0Write_history {size : Size} {offset wdata : Word64} {s t : State}
    (h : exec (.bar0Write size offset wdata) s = .next t) : ∃ e, t.history = s.history ++ [e] := by
  cases (atBoundary_next h).2
  obtain ⟨-, -, h⟩ | ⟨-, -, h⟩ | ⟨-, h⟩ := bar0WriteResult_cases size offset wdata s <;> rw [h] <;> exact ⟨_, rfl⟩

/-! ### What a BAR0 write leaves of the block -/

theorem exec_command (c : Command) (s : State) :
    exec c.instr s = .next (s.withBlock (s.block.runCommand s.params c)) := by
  cases c <;> rfl

theorem exec_bar0Write_block_of_not_accepted {size : Size} {offset wdata : Word64} {s t : State}
    (h : exec (.bar0Write size offset wdata) s = .next t) (ha : ¬ Accepted size offset) : t.block = s.block :=
  (exec_bar0Write_block h).trans (if_neg ha)

/-- A BAR0 write leaves nothing changed, or the merge with the selected command run on it (R104, R105). -/
theorem exec_bar0Write_block_of_selects {size : Size} {offset wdata : Word64} {s t : State} {c : Command}
    (h : exec (.bar0Write size offset wdata) s = .next t) (hsel : Selects (s.block.mergeRf size offset wdata) c) :
    t.block = s.block ∨ t.block = (s.block.mergeRf size offset wdata).runCommand s.params c := by
  by_cases ha : Accepted size offset
  · exact .inr (exec_bar0Write_block_of_runs h ((runs_bar0Write_iff ..).mpr ⟨ha, hsel⟩))
  · exact .inl (exec_bar0Write_block_of_not_accepted h ha)

/-- A byte that the write does not cover changes only if the command it runs changes that byte (R103). -/
theorem exec_bar0Write_read_outside {size : Size} {offset wdata : Word64} {s t : State} {c : Command} {x : Nat}
    (h : exec (.bar0Write size offset wdata) s = .next t) (hsel : Selects (s.block.mergeRf size offset wdata) c)
    (hx : x < offset.toNat ∨ offset.toNat + size.bytes ≤ x)
    (hc : commandByte c x (s.block.rf.read x) = s.block.rf.read x) : t.block.rf.read x = s.block.rf.read x := by
  obtain hb | hb := exec_bar0Write_block_of_selects h hsel
  · rw [hb]
  · rw [hb, Block.read_runCommand, Block.read_mergeRf, if_neg (by omega), hc]

/-- START and STOP keep every byte but 0x00 and 0x0C (R146, R149). -/
theorem commandByte_of_ne {c : Command} (hc : c ≠ .reset) {x : Nat} (h0 : x ≠ 0x00) (h12 : x ≠ 0x0C) (v : Byte) :
    commandByte c x v = v := by
  cases c with
  | reset => exact absurd rfl hc
  | start => rw [commandByte, if_neg h0, if_neg h12]
  | stop => rw [commandByte, if_neg h0, if_neg h12]
  | none => rfl

/-- STOP and NONE keep both data windows (R149, R152). -/
theorem Block.data_runCommand (p : Params) (b : Block) {c : Command} (hc : c = .stop ∨ c = .none) :
    (b.runCommand p c).input = b.input ∧ (b.runCommand p c).output = b.output := by
  obtain rfl | rfl := hc
  · exact ⟨b.stopTransition_input, b.stopTransition_output⟩
  · exact ⟨rfl, rfl⟩

/-- A BAR0 write that runs neither START nor RESET keeps both data windows (R103, R149, R152). -/
theorem exec_bar0Write_data {size : Size} {offset wdata : Word64} {s t : State} {c : Command}
    (h : exec (.bar0Write size offset wdata) s = .next t) (hsel : Selects (s.block.mergeRf size offset wdata) c)
    (hc : c = .stop ∨ c = .none) : SameBytes s.block.input t.block.input ∧ SameBytes s.block.output t.block.output := by
  obtain hb | hb := exec_bar0Write_block_of_selects h hsel
  · rw [hb]
    exact ⟨fun _ => rfl, fun _ => rfl⟩
  · obtain ⟨hin, hout⟩ := (s.block.mergeRf size offset wdata).data_runCommand s.params hc
    rw [hb, hin, hout]
    exact ⟨fun _ => rfl, fun _ => rfl⟩

/-! ### The command bits after a merge -/

/-- A write at offset 0 puts the low bits of its data into the command bits (R22, R85). -/
theorem Block.commandBits_mergeRf_zero (b : Block) (size : Size) (wdata : Word64) :
    (b.mergeRf size 0#64 wdata).commandBits = (byteOf wdata 0).extractLsb' 0 3 := by
  rw [Block.commandBits_eq, Block.read_mergeRf, if_pos ⟨Nat.zero_le _, Nat.add_pos_right _ size.bytes_pos⟩]
  rfl

end Sys2Proof.Machine

namespace Sys2Proof.Proofs

open Sys2Proof.Machine Sys2Proof.Claims

/-- Settles O16: a BAR0 read records the read event of the register file. -/
theorem bar0ReadResult : Obligations.Bar0ReadResult := fun _ size offset hw =>
  ⟨_, exec_bar0Read offset hw, readsWindow_readEvent _ _ offset size⟩

/-- Settles O21: a 4-byte read at a register's offset returns the register, of which the invariant speaks. -/
theorem readsBetweenTransactions : Obligations.ReadsBetweenTransactions := by
  intro s hs hw
  obtain ⟨-, hcmd, hstatus⟩ := hs
  have hread (o : Word64) (ho : o.toNat + 4 ≤ 64) : exec (.bar0Read .b4 o) s =
      .next (s.record ⟨.okRead, .data ((s.block.read32 o.toNat).setWidth 64)⟩) := by
    rw [← Block.load_rf_four]
    exact exec_bar0Read_of_inRange hw ho
  refine ⟨?_, ?_⟩
  · rw [← Block.control_eq_of_commandBits hcmd]
    exact hread 0x00#64 (by decide)
  · have hpoll : exec (.bar0Read .b4 0x0C#64) s = .next (s.record ⟨.okRead, .data (s.block.status.setWidth 64)⟩) :=
      hread 0x0C#64 (by decide)
    rw [hpoll]
    obtain hidle | hdone := hstatus
    · exact .inl (by rw [hidle]; rfl)
    · exact .inr (by rw [hdone]; rfl)

/-- Settles O24: the two checks are those of `Accepted`, and each way to end records its own outcome. -/
theorem bar0WriteDropped : Obligations.Bar0WriteDropped := by
  intro s size offset wdata hw
  refine ⟨fun hout => ?_, fun hr hlo hhi => ?_, fun ha => ⟨_, exec_bar0Write_of_accepted hw ha⟩, fun ⟨b, h⟩ => ?_⟩
  · rw [exec_bar0Write offset wdata hw, bar0WriteResult_of_outOfRange wdata s hout]
    rfl
  · rw [exec_bar0Write offset wdata hw, bar0WriteResult_of_overlap wdata s hr ⟨hlo, hhi⟩]
    rfl
  · exact accepted_of_bar0WriteResult (Host.Outcome.next.inj ((exec_bar0Write offset wdata hw).symm.trans h))

/-- Settles O25: the hook's command is the one that `Selects` names, and its meaning is the transition that the hook
runs. -/
theorem bar0WriteRunsCommand : Obligations.Bar0WriteRunsCommand := by
  intro s size offset wdata c hw ha hsel
  refine ⟨s.block.read_mergeRf size offset wdata, rfl, rfl, _, exec_command c _, ?_⟩
  rw [exec_bar0Write_of_accepted hw ha, Block.hook, ← (selects_iff ..).mp hsel]
  rfl

/-- Settles O27: outside the stored bytes only the command acts, and what each command keeps is said once. -/
theorem bar0WriteFrame : Obligations.Bar0WriteFrame := by
  intro s t size offset wdata h
  obtain ⟨hparams, hrequests⟩ := exec_params_requests h
  refine ⟨hparams, hrequests, exec_bar0Write_history h, exec_bar0Write_block_of_not_accepted h,
    fun hnone => ⟨fun x hx => ?_, exec_bar0Write_data h hnone (.inr rfl)⟩,
    fun hstop => ⟨fun x hx h0 h12 => ?_, exec_bar0Write_data h hstop (.inl rfl)⟩,
    fun hstart x hx h0 h12 => ?_⟩
  · exact exec_bar0Write_read_outside h hnone hx rfl
  · exact exec_bar0Write_read_outside h hstop hx (commandByte_of_ne (by decide) h0 h12 _)
  · exact exec_bar0Write_read_outside h hstart hx (commandByte_of_ne (by decide) h0 h12 _)

/-- Settles O28: with no command to run the merge stands as it was stored; a dropped write leaves the register file that
the read sees; and a read of any state answers from its own register file. -/
theorem bar0ReadBack : Obligations.Bar0ReadBack := by
  intro s size offset wdata hw
  refine ⟨fun ha hcmd => ⟨_, exec_bar0Write_of_accepted hw ha, ?_⟩, fun hs _ hzero => ?_, fun hlo hhi => ?_,
    fun t h => ?_⟩
  · exact exec_bar0Read_of_mergeRf (by exact hw) ha.1 (Block.hook_of_commandBits s.params hcmd)
  · obtain ⟨-, hcmd, -⟩ := hs
    by_cases ho : offset = 0#64
    · rw [ho, Block.commandBits_mergeRf_zero]
      exact hzero.resolve_left (absurd ho)
    · rw [s.block.commandBits_mergeRf_of_pos size wdata (BitVec.toNat_pos_of_ne_zero ho), hcmd]
  · have hr : offset.toNat + size.bytes ≤ 64 := by have := size.bytes_le; omega
    have hwrite := exec_bar0Write offset wdata hw
    rw [bar0WriteResult_of_overlap wdata s hr ⟨hlo, hhi⟩] at hwrite
    exact ⟨_, _, hwrite, exec_bar0Read offset hw, exec_bar0Read offset (by exact hw)⟩
  · have hwt : Bar.admits t.params.bar0Widths .bar0 size = true := by rwa [(exec_params_requests h).1]
    exact ⟨_, exec_bar0Read offset hwt, readsWindow_readEvent _ _ offset size⟩

/-- Settles O30: such a write leaves the command bits as the invariant has them, zero. -/
theorem hookFiresOnlyOnByteZero : Obligations.HookFiresOnlyOnByteZero := by
  intro s size offset wdata c hs _ hpos hsel
  obtain ⟨-, hcmd, -⟩ := hs
  rw [(selects_iff ..).mp hsel, s.block.commandBits_mergeRf_of_pos size wdata hpos, hcmd]
  rfl

end Sys2Proof.Proofs

/-! The statements of the data window family. What a BAR1 write leaves is said once in range
(`exec_bar1Write_of_inRange`) and once out of range (`exec_bar1Write_of_outOfRange`); its result, its frame and the
read-back follow from these two. -/

namespace Sys2Proof.Machine

open Sys2Proof.Claims

/-- A BAR1 write in range stores its bytes in `input` (R123, R124). -/
theorem exec_bar1Write_of_inRange {size : Size} {offset : Word64} (wdata : Word64) (s : State)
    (h : offset.toNat + size.bytes ≤ Config.inLen) :
    exec (.bar1Write size offset wdata) s =
      .next ((s.withBlock (s.block.withInput (s.block.input.store offset.toNat wdata size.bytes))).record
        (writeEvent .okWrite)) := by
  rw [exec_bar1Write, bar1WriteResult_of_inRange wdata s h]

/-- A BAR1 write out of range leaves only its record (R56, R123). -/
theorem exec_bar1Write_of_outOfRange {size : Size} {offset : Word64} (wdata : Word64) (s : State)
    (h : Config.inLen < offset.toNat + size.bytes) :
    exec (.bar1Write size offset wdata) s = .next (s.record (writeEvent .outOfRange)) := by
  rw [exec_bar1Write, bar1WriteResult_of_outOfRange wdata s h]

/-- The bytes of a window after a store are those that `StoredAt` names (R85). -/
theorem storedAt_store (m : Memory) (size : Size) (offset wdata : Word64) :
    StoredAt m (m.store offset.toNat wdata size.bytes) size offset wdata :=
  m.read_store offset.toNat wdata size.bytes

/-- A store leaves the bytes outside its range (R85). -/
theorem Memory.read_store_outside (m : Memory) {o n x : Nat} (v : Word64) (hx : x < o ∨ o + n ≤ x) :
    (m.store o v n).read x = m.read x := by
  rw [Memory.read_store, if_neg (by omega)]

/-- A load where the bytes stored were kept gives back the value, cut to the width (R125). -/
theorem Memory.load_of_kept_store {m m' : Memory} {o : Nat} {v : Word64} {size : Size}
    (h : ∀ x, o ≤ x → x < o + size.bytes → m'.read x = (m.store o v size.bytes).read x) :
    m'.load o size.bytes = v &&& ones size.bytes :=
  (Memory.load_congr h).trans (m.load_store o v size)

theorem bar2WriteEvent_of_ignored {p : Params} (h : p.bar2WriteHost = .ignored) :
    bar2WriteEvent p = ⟨.noWritePath, .complete⟩ := by
  rw [bar2WriteEvent, h]

theorem bar2WriteEvent_of_hostFault {p : Params} (h : p.bar2WriteHost = .hostFault) :
    bar2WriteEvent p = ⟨.noWritePath, .hostFault⟩ := by
  rw [bar2WriteEvent, h]

end Sys2Proof.Machine

namespace Sys2Proof.Proofs

open Sys2Proof.Machine Sys2Proof.Claims

/-- Settles O17: a BAR1 read records the read event of `input`. -/
theorem bar1ReadResult : Obligations.Bar1ReadResult := fun s size offset =>
  ⟨_, exec_bar1Read size offset s, readsWindow_readEvent _ _ offset size⟩

/-- Settles O18: a BAR2 read records the read event of `output`. -/
theorem bar2ReadResult : Obligations.Bar2ReadResult := fun s size offset =>
  ⟨_, exec_bar2Read size offset s, readsWindow_readEvent _ _ offset size⟩

/-- Settles O31: the new `input` is the store, and out of range there is none. -/
theorem bar1WriteResult : Obligations.Bar1WriteResult := fun s size offset wdata =>
  ⟨fun hin => ⟨_, storedAt_store _ size offset wdata, exec_bar1Write_of_inRange wdata s hin⟩,
    fun hout => exec_bar1Write_of_outOfRange wdata s hout⟩

/-- Settles O32: in range only `input` is replaced, by a store that keeps the bytes outside its range; out of range the
block stays. -/
theorem bar1WriteFrame : Obligations.Bar1WriteFrame := by
  intro s t size offset wdata h
  by_cases hr : offset.toNat + size.bytes ≤ 4096
  · cases (exec_bar1Write_of_inRange wdata s hr).symm.trans h
    exact ⟨rfl, rfl, ⟨_, rfl⟩, fun _ => rfl, fun _ => rfl, fun _ hx => Memory.read_store_outside _ wdata hx,
      fun hout => absurd hr (Nat.not_le_of_lt hout)⟩
  · cases (exec_bar1Write_of_outOfRange wdata s (Nat.lt_of_not_le hr)).symm.trans h
    exact ⟨rfl, rfl, ⟨_, rfl⟩, fun _ => rfl, fun _ => rfl, fun _ _ => rfl, fun _ _ => rfl⟩

/-- Settles O33: the read loads the bytes that the write stored, for the later state kept them. -/
theorem bar1RoundTrip : Obligations.Bar1RoundTrip := by
  intro s t u size offset wdata hr h hkept
  cases (exec_bar1Write_of_inRange wdata s hr).symm.trans h
  rw [exec_bar1Read, readEvent_of_inRange hr, Memory.load_of_kept_store hkept]

/-- Settles O34: a BAR2 store only records its event, which BAR2_WRITE_HOST chooses. -/
theorem bar2WriteResult : Obligations.Bar2WriteResult := by
  intro s size offset wdata
  rw [exec_bar2Write]
  exact ⟨fun h => by rw [bar2WriteEvent_of_ignored h], fun h => by rw [bar2WriteEvent_of_hostFault h]⟩

end Sys2Proof.Proofs

/-! The statements of the command engine family. What an accepted BAR0 write leaves is said once, by the command that its
post-write bits select (`exec_bar0Write_of_selects`), and so are the net effects of START and STOP
(`startEffect_startTransition`, `stopEffect_stopTransition`). -/

namespace Sys2Proof.Machine

open Sys2Proof.Claims

/-! ### What START and STOP leave of the registers -/

/-- Registers that agree from bit 2 up have the same bits 31:2. -/
theorem extractLsb'_high_congr {v w : Word32} (h : ∀ j, 2 ≤ j → j < 32 → v.getLsbD j = w.getLsbD j) :
    v.extractLsb' 2 30 = w.extractLsb' 2 30 := by
  apply BitVec.eq_of_getLsbD_eq
  intro j hj
  rw [BitVec.getLsbD_extractLsb', BitVec.getLsbD_extractLsb', h (2 + j) (by omega) (by omega)]

/-- START and STOP clear bits 0 and 1 of `control`, and no command but RESET reaches `control[31:2]` (R146, R149). -/
theorem Block.control_high_runCommand (p : Params) (b : Block) {c : Command} (hc : c ≠ .reset) :
    (b.runCommand p c).control.extractLsb' 2 30 = b.control.extractLsb' 2 30 := by
  refine extractLsb'_high_congr fun j hlo hj => ?_
  have hhigh : ¬ (j = 0 ∨ j = 1) := by omega
  cases c with
  | reset => exact absurd rfl hc
  | start => rw [Block.runCommand, b.getLsbD_control_startTransition p hj, if_neg hhigh]
  | stop => rw [Block.runCommand, b.getLsbD_control_stopTransition hj, if_neg hhigh]
  | none => rfl

theorem keepsOtherRegisters_runCommand (p : Params) (b : Block) {c : Command} (hc : c ≠ .reset) :
    KeepsOtherRegisters b (b.runCommand p c) := by
  refine ⟨fun x h0 h12 => ?_, b.control_high_runCommand p hc, b.status_high_runCommand p hc⟩
  rw [Block.read_runCommand, commandByte_of_ne hc h0 h12]

/-- `status[1:0]` is `done` over `busy` once both are written (R26, R31). -/
theorem Block.status_low_setBusyDone (b : Block) (busy done : Bool) :
    (b.setBusyDone busy done).status.extractLsb' 0 2 = BitVec.ofBool done ++ BitVec.ofBool busy := by
  apply BitVec.eq_of_getLsbD_eq
  intro j hj
  rw [BitVec.getLsbD_extractLsb', Nat.zero_add, b.getLsbD_status_setBusyDone busy done (by omega)]
  have : j = 0 ∨ j = 1 := by omega
  obtain rfl | rfl := this <;> cases busy <;> cases done <;> rfl

/-- Where `status[31:2]` is zero, `busy` and `done` make up all of `status` (R27, R28). -/
theorem Block.status_setBusyDone_of_high {b : Block} (busy done : Bool) (h : b.status.extractLsb' 2 30 = 0#30) :
    (b.setBusyDone busy done).status = (Block.zero.setBusyDone busy done).status :=
  Block.status_setBusyDone_congr busy done (h.trans (by decide))

/-- START leaves Done and nothing else in a `status` whose bits 31:2 are zero (R146). -/
theorem Block.status_startTransition_of_high (p : Params) {b : Block} (h : b.status.extractLsb' 2 30 = 0#30) :
    (b.startTransition p).status = 0x00000002#32 := by
  rw [Block.status_startTransition, Block.status_setBusyDone_of_high false true h]
  decide

/-- STOP leaves a `status` whose bits 31:2 are zero all zero (R149). -/
theorem Block.status_stopTransition_of_high {b : Block} (h : b.status.extractLsb' 2 30 = 0#30) :
    b.stopTransition.status = 0x00000000#32 := by
  rw [Block.status_stopTransition, Block.status_setBusyDone_of_high false false h]
  decide

/-- Where `control.start` is the only bit of `control` set, START leaves none (R146). -/
theorem Block.control_startTransition_of_start (p : Params) {b : Block} (h : b.control = 0x00000001#32) :
    (b.startTransition p).control = 0x00000000#32 := by
  apply BitVec.eq_of_getLsbD_eq
  intro j hj
  rw [b.getLsbD_control_startTransition p hj, h, BitVec.getLsbD_zero]
  by_cases h0 : j = 0
  · rw [if_pos (.inl h0)]
  · simp [BitVec.getLsbD_one, h0]

/-- START's whole net effect: the registers it keeps, the bits it assigns, and COMPUTE's result for `input` (R146). -/
theorem startEffect_startTransition (p : Params) (b : Block) : StartEffect p b (b.startTransition p) := by
  refine ⟨keepsOtherRegisters_runCommand p b (c := .start) (by decide),
    b.getLsbD_control_startTransition p (by decide), b.getLsbD_control_startTransition p (by decide), ?_,
    Block.status_startTransition_of_high p, fun x => ?_, fun x => ?_⟩
  · rw [Block.status_startTransition, Block.status_low_setBusyDone]
    rfl
  · rw [Block.startTransition_output, Memory.read_ofBytes]
  · rw [Block.startTransition_input, Memory.read_zeros]

/-- STOP's whole net effect: as START's on the registers but for the state it leaves, and the data windows stay (R149). -/
theorem stopEffect_stopTransition (b : Block) : StopEffect b b.stopTransition := by
  refine ⟨keepsOtherRegisters_runCommand Params.default b (c := .stop) (by decide),
    b.getLsbD_control_stopTransition (by decide), b.getLsbD_control_stopTransition (by decide), ?_,
    Block.status_stopTransition_of_high, b.stopTransition_input, b.stopTransition_output⟩
  rw [Block.status_stopTransition, Block.status_low_setBusyDone]
  rfl

/-! ### The write that triggers a command -/

/-- An accepted BAR0 write leaves the merge with the selected command run on it (R103, R105, R142). -/
theorem exec_bar0Write_of_selects {size : Size} {offset wdata : Word64} {s : State} {c : Command}
    (hw : Bar.admits s.params.bar0Widths .bar0 size = true) (ha : Accepted size offset)
    (hsel : Selects (s.block.mergeRf size offset wdata) c) :
    exec (.bar0Write size offset wdata) s =
      .next ((s.withBlock ((s.block.mergeRf size offset wdata).runCommand s.params c)).record
        ⟨.okWrite, .complete⟩) := by
  rw [exec_bar0Write_of_accepted hw ha, Block.hook, ← (selects_iff ..).mp hsel]
  rfl

/-- A 4-byte write of the word at offset 0x00 makes it the whole of `control` (R21, R85). -/
theorem Block.control_mergeRf_b4 (b : Block) (w : Word32) :
    (b.mergeRf .b4 0x00#64 (w.setWidth 64)).control = w := by
  have hload := b.rf.load_store 0 (w.setWidth 64) .b4
  have hcontrol : (b.mergeRf .b4 0x00#64 (w.setWidth 64)).control = (w.setWidth 64 &&& ones 4).setWidth 32 :=
    congrArg (BitVec.setWidth 32) hload
  rw [hcontrol, BitVec.setWidth_and, BitVec.setWidth_setWidth_of_le _ (by decide), BitVec.setWidth_eq]
  exact BitVec.and_allOnes

/-- A 4-byte BAR0 read returns the register at its offset, zero-extended (R42, R86, R100). -/
theorem exec_bar0Read_of_read32 {offset : Word64} {s : State} {o : Nat} {w : Word32} {v : Word64}
    (hw : Bar.admits s.params.bar0Widths .bar0 .b4 = true) (ho : offset.toNat = o) (hr : o + 4 ≤ Config.rfLen)
    (h : s.block.read32 o = w) (hv : w.setWidth 64 = v) :
    exec (.bar0Read .b4 offset) s = .next (s.record ⟨.okRead, .data v⟩) := by
  subst ho
  rw [← hv, ← h, ← Block.load_rf_four]
  exact exec_bar0Read_of_inRange hw hr

/-- Between transactions `status[31:2]` is zero and the engine is Idle or Done (R28, R32). -/
theorem Block.Inv.engine_and_status_high {b : Block} (hb : b.Inv) :
    (b.engine = some .idle ∨ b.engine = some .done) ∧ b.status.extractLsb' 2 30 = 0#30 := by
  obtain ⟨-, -, hstatus⟩ := hb
  simp only [Block.engine, Block.busy, Block.done]
  obtain hstatus | hstatus := hstatus <;> rw [hstatus] <;> decide

end Sys2Proof.Machine

namespace Sys2Proof.Proofs

open Sys2Proof.Machine Sys2Proof.Claims

/-- Settles O26: with no command bit set the hook leaves the merge as it is. -/
theorem bar0WriteWithoutCommand : Obligations.Bar0WriteWithoutCommand := by
  intro s size offset wdata hw ha hcmd
  have hexec := exec_bar0Write_of_accepted (wdata := wdata) hw ha
  rw [Block.hook_of_commandBits s.params hcmd] at hexec
  exact ⟨_, hexec, s.block.read_mergeRf size offset wdata, rfl, rfl, rfl⟩

/-- Settles O37: `control.reset` alone selects RESET, which replaces the whole block. -/
theorem resetResult : Obligations.ResetResult := fun _ _ _ _ =>
  ⟨rfl, fun hw ha hreset => exec_bar0Write_of_selects hw ha (.inl ⟨hreset, rfl⟩)⟩

/-- Settles O38: the command and the write that triggers it run the same transition, on the block found and on the
merge. -/
theorem startResult : Obligations.StartResult := fun s _ _ _ =>
  ⟨⟨_, rfl, startEffect_startTransition s.params _⟩, fun hw ha hreset hstart =>
    ⟨_, exec_bar0Write_of_selects hw ha (.inr (.inl ⟨hreset, hstart, rfl⟩)), startEffect_startTransition s.params _⟩⟩

/-- Settles O39: as for START, with STOP's transition. -/
theorem stopResult : Obligations.StopResult := fun _ _ _ _ =>
  ⟨⟨_, rfl, stopEffect_stopTransition _⟩, fun hw ha hreset hstart hstop =>
    ⟨_, exec_bar0Write_of_selects hw ha (.inr (.inr (.inl ⟨hreset, hstart, hstop, rfl⟩))), stopEffect_stopTransition _⟩⟩

/-- Settles O43: the block after the write is the selected command's transition of the merge, which has the `status` and
the data windows that the transaction found. -/
theorem transitionTable : Obligations.TransitionTable := by
  intro s t size offset wdata c hs ha hsel h
  have hruns := (runs_bar0Write_iff size offset wdata s c).mpr ⟨ha, hsel⟩
  have ht := exec_bar0Write_block_of_runs h hruns
  refine ⟨hs.engine_and_status_high.1, ?_⟩
  cases c with
  | reset => exact ⟨ht ▸ Block.engine_zero, ht⟩
  | start =>
    obtain ⟨hin, hout⟩ := exec_bar0Write_start h hruns
    exact ⟨ht ▸ Block.engine_startTransition s.params _, fun x => hin ▸ Memory.read_zeros x, hout⟩
  | stop => exact ⟨ht ▸ Block.engine_stopTransition _, ht ▸ rfl, ht ▸ rfl⟩
  | none =>
    have hstatus := s.block.status_mergeRf wdata ((accepted_iff size offset).mp ha).2
    exact ⟨ht ▸ Block.engine_congr hstatus, ht ▸ rfl, ht ▸ rfl⟩

/-- Settles O44: RESET leaves no command bit for the transitions after it, START leaves `control.stop` clear. -/
theorem oneTransitionOrInTurn : Obligations.OneTransitionOrInTurn := by
  intro p b
  have hzero : Block.zero.start = false ∧ Block.zero.stop = false := by decide
  have hafter : (b.startTransition p).stop = false := b.getLsbD_control_startTransition p (by decide)
  obtain ⟨(hreset : b.resetBit = true), hc⟩ | ⟨(hreset : b.resetBit = false), (hstart : b.start = true), hc⟩ |
    ⟨(hreset : b.resetBit = false), (hstart : b.start = false), (hstop : b.stop = true), hc⟩ |
    ⟨(hreset : b.resetBit = false), (hstart : b.start = false), (hstop : b.stop = false), hc⟩ :=
    selects_decodeCommand b <;> rw [Block.hook, hc, Block.runCommand]
  · simp [transitionsInTurn, hreset, hzero]
  · simp [transitionsInTurn, hreset, hstart, hafter]
  · simp [transitionsInTurn, hreset, hstart, hstop]
  · simp [transitionsInTurn, hreset, hstart, hstop]

/-- Settles O46: the START write makes `control` 1 and keeps `status[31:2]` zero, so that START leaves 0 and Done. -/
theorem firstPollReadsDone : Obligations.FirstPollReadsDone := by
  intro s hs hw
  have hacc : Accepted .b4 0x00#64 := by decide
  have hcontrol : (s.block.mergeRf .b4 0x00#64 0x00000001#64).control = 0x00000001#32 :=
    s.block.control_mergeRf_b4 0x00000001#32
  have hhigh : (s.block.mergeRf .b4 0x00#64 0x00000001#64).status.extractLsb' 2 30 = 0#30 := by
    rw [s.block.status_mergeRf _ ((accepted_iff _ _).mp hacc).2, hs.engine_and_status_high.2]
  have hsel : Selects (s.block.mergeRf .b4 0x00#64 0x00000001#64) .start := by
    rw [Selects, hcontrol]; decide
  refine ⟨_, exec_bar0Write_of_selects hw hacc hsel, ?_⟩
  generalize s.block.mergeRf .b4 0x00#64 0x00000001#64 = b at hcontrol hhigh
  exact ⟨exec_bar0Read_of_read32 hw (o := statusOffset) rfl (by decide)
      (Block.status_startTransition_of_high s.params hhigh) rfl,
    exec_bar0Read_of_read32 hw (o := controlOffset) rfl (by decide)
      (Block.control_startTransition_of_start s.params hcontrol) rfl⟩

/-- Settles O40: NONE is dispatched to no transition. -/
theorem noneResult : Obligations.NoneResult := fun _ => rfl

end Sys2Proof.Proofs

/-! The statements of the exceptions family. `step_outcomes` says once everything that a step can do, with any history:
it has no request to take, or the decoder refuses the request, or the transaction completes with one event that answers
as its kind says (`AnswersAsItsKind`). -/

namespace Sys2Proof.Machine

/-- The response to a transaction, by its kind: a value of the width, a completion, or what BAR2_WRITE_HOST says (R80,
R86, R128, R170). A command is no transaction and has no response (R87). -/
def AnswersAsItsKind (p : Params) : Instr → Response → Prop
  | .bar0Read size _, a | .bar1Read size _, a | .bar2Read size _, a => ∃ v, a = .data v ∧ v.toNat < 2 ^ (8 * size.bytes)
  | .bar0Write .., a | .bar1Write .., a => a = .complete
  | .bar2Write .., a => a = (bar2WriteEvent p).response
  | .cmdReset, _ | .cmdStart, _ | .cmdStop, _ | .cmdNone, _ => False

/-! ### A read's value has the width of the access -/

theorem Memory.toNat_load_lt (m : Memory) (o : Nat) {n : Nat} (hn : n ≤ 8) : (m.load o n).toNat < 2 ^ (8 * n) := by
  refine Nat.lt_pow_two_of_testBit _ fun i hi => ?_
  rw [← BitVec.getLsbD, m.getLsbD_load o n i hn, decide_eq_false (Nat.not_lt.mpr hi), Bool.false_and]

theorem toNat_ones_lt (n : Nat) : (ones n).toNat < 2 ^ (8 * n) :=
  Nat.lt_of_le_of_lt (Nat.mod_le ..) (Nat.sub_one_lt (Nat.ne_of_gt (Nat.two_pow_pos _)))

theorem readEvent_response_fits (m : Memory) (len : Nat) (offset : Word64) (size : Size) :
    ∃ v, (readEvent m len offset size).response = .data v ∧ v.toNat < 2 ^ (8 * size.bytes) := by
  by_cases h : offset.toNat + size.bytes ≤ len
  · rw [readEvent_of_inRange h]
    exact ⟨_, rfl, m.toNat_load_lt _ size.bytes_le⟩
  · rw [readEvent_of_outOfRange (Nat.lt_of_not_le h)]
    exact ⟨_, rfl, toNat_ones_lt _⟩

/-! ### A transaction is a matter of the parameters and the block alone -/

theorem bar0WriteResult_completes (p : Params) (b : Block) (size : Size) (offset wdata : Word64) :
    ∃ b' e, e.response = .complete ∧ ∀ requests history,
      bar0WriteResult size offset wdata ⟨p, b, requests, history⟩ = ⟨p, b', requests, history ++ [e]⟩ := by
  unfold bar0WriteResult
  split
  · split
    · exact ⟨b, writeEvent .readOnlyDrop, rfl, fun _ _ => rfl⟩
    · exact ⟨(b.mergeRf size offset wdata).hook p, writeEvent .okWrite, rfl, fun _ _ => rfl⟩
  · exact ⟨b, writeEvent .outOfRange, rfl, fun _ _ => rfl⟩

theorem bar1WriteResult_completes (p : Params) (b : Block) (size : Size) (offset wdata : Word64) :
    ∃ b' e, e.response = .complete ∧ ∀ requests history,
      bar1WriteResult size offset wdata ⟨p, b, requests, history⟩ = ⟨p, b', requests, history ++ [e]⟩ := by
  unfold bar1WriteResult
  split
  · exact ⟨b.withInput (b.input.store offset.toNat wdata size.bytes), writeEvent .okWrite, rfl, fun _ _ => rfl⟩
  · exact ⟨b, writeEvent .outOfRange, rfl, fun _ _ => rfl⟩

/-- A transaction of an admitted width completes with one event, whatever requests wait and whatever was recorded
(R170, R171). -/
theorem exec_ofTransaction_completes {p : Params} {bar : Bar} {size : Size} (hw : bar.admits p.bar0Widths size = true)
    (dir : Dir) (offset wdata : Word64) (b : Block) :
    ∃ b' e, AnswersAsItsKind p (Instr.ofTransaction bar dir size offset wdata) e.response ∧ ∀ requests history,
      exec (Instr.ofTransaction bar dir size offset wdata) ⟨p, b, requests, history⟩ =
        .next ⟨p, b', requests, history ++ [e]⟩ := by
  cases dir with
  | read =>
    cases bar with
    | bar0 => exact ⟨b, _, readEvent_response_fits b.rf Config.rfLen offset size, fun _ _ => exec_bar0Read offset hw⟩
    | bar1 =>
      exact ⟨b, _, readEvent_response_fits b.input Config.inLen offset size, fun _ _ => exec_bar1Read size offset _⟩
    | bar2 =>
      exact ⟨b, _, readEvent_response_fits b.output Config.outLen offset size, fun _ _ => exec_bar2Read size offset _⟩
  | write =>
    cases bar with
    | bar0 =>
      obtain ⟨b', e, he, h⟩ := bar0WriteResult_completes p b size offset wdata
      exact ⟨b', e, he, fun rs hs => (exec_bar0Write offset wdata hw).trans (congrArg _ (h rs hs))⟩
    | bar1 =>
      obtain ⟨b', e, he, h⟩ := bar1WriteResult_completes p b size offset wdata
      exact ⟨b', e, he, fun rs hs => (exec_bar1Write size offset wdata _).trans (congrArg _ (h rs hs))⟩
    | bar2 => exact ⟨b, bar2WriteEvent p, rfl, fun _ _ => exec_bar2Write size offset wdata _⟩

/-! ### Everything that a step can do -/

/-- The oldest request completes if it decodes, for what decodes is a transaction of an admitted width (R88, R170). -/
theorem step_of_decode_ok_completes {s : State} {r : Request} {rest : List Request} {i : Instr}
    (hr : s.requests = r :: rest) (hd : decode s.params.bar0Widths (.transaction r) = .ok i) :
    ∃ b e, AnswersAsItsKind s.params i e.response ∧
      ∀ history, step { s with history } = .next ⟨s.params, b, rest, history ++ [e]⟩ := by
  obtain ⟨bar, dir, size, -, hw, rfl⟩ := decode_transaction_eq_ok hd
  obtain ⟨b, e, he, h⟩ := exec_ofTransaction_completes hw dir r.offset r.wdata s.block
  exact ⟨b, e, he, fun history => (step_of_decode_ok (s := { s with history }) hr hd).trans (h rest history)⟩

/-- The three ways in which a step ends, each the same with any history (R60, R88, R170, R171). -/
theorem step_outcomes (s : State) :
    (∀ history, step { s with history } = .next { s with history }) ∨
    (∃ r rest reason, s.requests = r :: rest ∧ decode s.params.bar0Widths (.transaction r) = .refuse reason ∧
      ∀ history, step { s with history } = .refused (.boundary reason)) ∨
    (∃ b rest e, ∀ history, step { s with history } = .next ⟨s.params, b, rest, history ++ [e]⟩) := by
  by_cases hr : s.requests = []
  · exact .inl fun history => Proofs.stepWithoutRequest { s with history } hr
  · obtain ⟨r, rest, hr⟩ := List.exists_cons_of_ne_nil hr
    cases hd : decode s.params.bar0Widths (.transaction r) with
    | refuse reason =>
      exact .inr (.inl ⟨r, rest, reason, hr, hd, fun history => step_of_decode_refuse (s := { s with history }) hr hd⟩)
    | ok i =>
      obtain ⟨b, e, -, h⟩ := step_of_decode_ok_completes hr hd
      exact .inr (.inr ⟨b, rest, e, h⟩)

end Sys2Proof.Machine

namespace Sys2Proof.Proofs

open Sys2Proof.Machine

/-- Settles O12: what decodes is a transaction of an admitted width, which completes as its kind says. -/
theorem everyTransactionCompletes : Obligations.EveryTransactionCompletes := by
  intro s r rest i hr hd
  obtain ⟨b, e, he, h⟩ := step_of_decode_ok_completes hr hd
  refine ⟨_, e, h s.history, rfl, rfl, rfl, ?_, ?_, ?_⟩
  · rintro size offset (rfl | rfl | rfl) <;> exact he
  · rintro size offset wdata (rfl | rfl) <;> exact he
  · rintro size offset wdata rfl
    have he : e.response = (bar2WriteEvent s.params).response := he
    exact ⟨fun hp => by rw [he, bar2WriteEvent_of_ignored hp], fun hp => by rw [he, bar2WriteEvent_of_hostFault hp]⟩

/-- Settles O13: there is no fault to stop with, and of the three ways in which a step ends only the decoder's refusal
is one. -/
theorem stopsOnlyAtBoundary : Obligations.StopsOnlyAtBoundary := by
  refine fun s => ⟨nofun, fun e => ⟨fun he => ?_, ?_⟩⟩
  · obtain h | ⟨r, rest, reason, hr, hd, h⟩ | ⟨b, rest, ev, h⟩ := step_outcomes s
    · cases (h s.history).symm.trans he
    · cases (h s.history).symm.trans he
      exact ⟨r, rest, reason, hr, hd, rfl⟩
    · cases (h s.history).symm.trans he
  · rintro ⟨r, rest, reason, hr, hd, rfl⟩
    exact step_of_decode_refuse hr hd

/-- Settles O14: each of the three ways in which a step ends is the same with any history, and adds no event or one. -/
theorem historyIsNotRead : Obligations.HistoryIsNotRead := by
  intro s history
  obtain h | ⟨_, _, reason, -, -, h⟩ | ⟨b, rest, e, h⟩ := step_outcomes s
  · refine ⟨fun t ht => ?_, fun _ hrefused => nomatch (h s.history).symm.trans hrefused⟩
    cases (h s.history).symm.trans ht
    exact ⟨[], (List.append_nil _).symm, by rw [h history, List.append_nil]⟩
  · exact ⟨fun _ ht => (nomatch (h s.history).symm.trans ht),
      fun _ hrefused => (h history).trans ((h s.history).symm.trans hrefused)⟩
  · refine ⟨fun t ht => ?_, fun _ hrefused => nomatch (h s.history).symm.trans hrefused⟩
    cases (h s.history).symm.trans ht
    exact ⟨[e], rfl, h history⟩

end Sys2Proof.Proofs
